-- ==== Sys2Proof/Word.lean ====
section
/-!
DEFINITION. The widths of SIE-CORE's values: 32-bit command and response words
(00_scope.md R12), 16-bit quantized colours, 8-bit channels, indices and sink bytes (R13).
-/

namespace Sys2Proof

/-- A command word or a response word, carried whole (R12 in 00_scope.md, R59 in 20_memory.md). -/
abbrev Word := BitVec 32

/-- A channel, an index, a packed byte, a byte of a sink (R13 in 00_scope.md). -/
abbrev Byte := BitVec 8

/-- A quantized colour: BGR555 in 16 bits, and every 16-bit `val` of a response (R13, R89). -/
abbrev Colour := BitVec 16

end Sys2Proof
end

