-- ==== Sys2Proof/Config.lean ====
section
/-!
DEFINITION. The parameters of this hardware (00_scope.md section 5). "Every parameter is fixed for
this hardware; none is left as a model argument", and 93_implementation_defined.md leaves no value
of the core open, so no constant here is opaque.
-/

namespace Sys2Proof.Config

/-- Bits per pixel, the number of bitplanes (R6). -/
def bpp : Nat := 4

/-- Pixels along one side of a tile (R7). -/
def tile : Nat := 8

/-- Tiles of a sprite (R7). -/
def ntiles : Nat := 4

/-- Pixels of one row of the index buffer, and cells of one row of the scratch memory
(R7; R54 in 20_memory.md). -/
def stride : Nat := 16

/-- Entries of `PAL` (R8, R30). -/
def palCap : Nat := 255

/-- Entries of `IDX` (R9, R31). -/
def idxCap : Nat := 256

/-- Cells of `SCR` (R32). -/
def scrCap : Nat := 256

/-- The alpha slot that opens the palette stream (R10). -/
def alpha : Colour := 0xFFFF#16

/-- Bytes of one tile of the sprite stream (R11). -/
def tileBytes : Nat := 32

/-- Bytes of one sprite (R11; 90_conflicts.md C1: not 64). -/
def spriteBytes : Nat := 128

end Sys2Proof.Config
end

