-- ==== Sys2Proof/Syntax.lean ====
section
/-!
DEFINITION. The eight commands of spec/opcode_table.json (30_encoding.md R86), one constructor each.
The operands are the fields of the word as they stand, unsigned (R83, R84, R85), so every value of
an operand's type is one the encoding admits.
-/

namespace Sys2Proof

/-- A command of SIE-CORE. -/
inductive Instr where
  /-- `CLR`, format Z (R180). -/
  | clr
  /-- `QUANT R, G, B`, format C (R112). -/
  | quant (r g b : Byte)
  /-- `PIX R, G, B`, format C (R120). -/
  | pix (r g b : Byte)
  /-- `WRPAL`, format Z (R170). -/
  | wrpal
  /-- `ENCODE`, format Z (R140). -/
  | encode
  /-- `RDREG n`, format N: `n` is a register number (R181). -/
  | rdreg (n : Byte)
  /-- `RDPAL k`, format N: `k` is a 0-based palette position (R182). -/
  | rdpal (k : Byte)
  /-- `RDIDX a`, format N: `a` is an entry of the index buffer (R183). -/
  | rdidx (a : Byte)
  deriving DecidableEq, Repr

end Sys2Proof
end

