-- ==== Sys2Proof/Machine/State.lean ====
section
/-!
DEFINITION. The state of SIE-CORE as plain data: the registers and memories of 10_state.md and,
beside them, the host's side of the interface (its coming actions, the sink's answers, the bytes the
sinks have accepted, the responses it has received), because a step is one function of the state.
-/

namespace Sys2Proof.Machine

/-- A memory of `w`-bit entries addressed by entry number (R50, R60 in 20_memory.md): the written
entries, addresses strictly rising; an unlisted entry has no value (log entry 5). `Memory 8` is a
list of `Host.Cell`. -/
abbrev Memory (w : Nat) := List (Nat × BitVec w)

/-- The three private memories (R50). -/
inductive Space where
  | pal
  | idx
  | scr
  deriving DecidableEq, Repr

/-- The two byte sinks (R34, R50): `P` takes the palette stream, `S` the sprite stream. -/
inductive Sink where
  | P
  | S
  deriving DecidableEq, Repr

/-- How the environment answers the bytes one command offers (R42, R55; U9, U10, U16). Byte numbers
count from 0 within the command's stream. A number the stream does not reach has no effect. -/
inductive SinkAnswer where
  /-- Every byte offered is accepted. -/
  | acceptAll
  /-- Bytes before `j` are accepted and byte `j` is failed. -/
  | failAt (j : Nat)
  /-- Bytes before `j` are accepted and byte `j` is never answered (R257, U9). -/
  | silentAt (j : Nat)
  /-- The host resets the block when `j` bytes of the stream have been accepted and before the
  response (R240, U16). -/
  | resetAt (j : Nat)
  deriving DecidableEq, Repr

/-- What the host does next (R244). -/
inductive HostEvent where
  /-- It issues a command word, the previous command being over; `ans` is how its sink will answer
  (R42). -/
  | command (w : Word) (ans : SinkAnswer)
  /-- It resets the block (R240). -/
  | reset
  /-- It issues a word before the response to the previous one (R251, U8). -/
  | tooEarly (w : Word)
  deriving DecidableEq, Repr

/-- The five error kinds (R200 in 60_exceptions.md); `NONE` is the absence of an error. -/
inductive ErrKind where
  | capacity
  | empty
  | shape
  | sinkIo
  | illegalCmd
  deriving DecidableEq, Repr

/-- The three statuses of a response; the value 3 never occurs (R89 in 30_encoding.md). -/
inductive Status where
  | ok
  | error
  | refused
  deriving DecidableEq, Repr

structure State where
  /-- `ERR`, the code of the first error since `CLR` or reset (R25). -/
  err : BitVec 3
  /-- `PLEN`, the number of palette entries (R23). -/
  plen : BitVec 8
  /-- `WPTR`, the number of pixels accepted (R24). -/
  wptr : BitVec 9
  /-- `QOUT`, the last `QUANT` result (R22). -/
  qout : BitVec 16
  /-- `PDONE`, the palette stream was emitted in full (R26). -/
  pdone : Bool
  /-- `EDONE`, the sprite stream was emitted in full (R27). -/
  edone : Bool
  /-- `PAL`, 255 entries of 16 bits (R30). -/
  pal : Memory 16
  /-- `IDX`, 256 entries of 8 bits (R31). -/
  idx : Memory 8
  /-- `SCR`, 256 hidden cells of 8 bits (R32). -/
  scr : Memory 8
  /-- The host's: the bytes sink `P` has accepted, oldest first (R34, R55). -/
  sinkP : List Byte
  /-- The host's: the bytes sink `S` has accepted, oldest first (R34, R55). -/
  sinkS : List Byte
  /-- The host's: the response words it has received, oldest first (R89). -/
  responses : List Word
  /-- The host's: what it will do next, the next action first (R244). -/
  inbox : List HostEvent
  /-- The host's: how the sink answers the command in work (R42). -/
  sinkAnswer : SinkAnswer
  deriving DecidableEq, Repr

/-- The machine right after reset (R41), with nothing yet issued by the host, no response received
and both sinks empty (log entries 1, 2, 3, 4). Unwritten `PAL` and `IDX` entries and the unspecified
cells of `SCR` have no value (log entries 5, 6). -/
def State.reset : State where
  err := 0#3
  plen := 0#8
  wptr := 0#9
  qout := 0#16
  pdone := false
  edone := false
  pal := []
  idx := []
  scr := []
  sinkP := []
  sinkS := []
  responses := []
  inbox := []
  sinkAnswer := .acceptAll

/-- Why the machine stops. An error of the hardware (`ErrKind`) is none of these: it is a next
state. -/
inductive Fault where
  /-- An entry that holds no value is read. Raised by `PIX`, `WRPAL`, `RDPAL` (space `pal`) and by
  `ENCODE`, `RDIDX` (space `idx`), only in states in which `PLEN` or `WPTR` claims an entry that was
  never written, which no run from reset reaches; `scr` is there because `ENCODE` reads `SCR` through
  the same operation, after clearing it. Safe: the model stops where the spec gives no value (R62, U1;
  log entry 5). -/
  | unwrittenEntry (sp : Space) (a : Nat)
  /-- An entry number the memory does not have is written. Raised by `PIX` when `WPTR` is above 256,
  which no run from reset reaches. Safe (R50, R60; log entry 7). -/
  | noSuchEntry (sp : Space) (a : Nat)
  /-- Stuck: the sink never answers the byte offered, so the command never ends and no later command
  runs. Raised by `WRPAL` and `ENCODE` under the answer `silentAt`. Safe (R257, U9; log entry 8). -/
  | sinkSilent (x : Sink)
  deriving DecidableEq, Repr

/-- Why the model gives a step no meaning. -/
inductive Refusal where
  /-- Raised by an arm of `exec` whose instruction has no meaning yet; no arm is left that does. Safe. -/
  | notModelled (mnemonic : String)
  /-- Raised by `step` when the host issues a word before the response to the previous one: "a model
  gives such a run no meaning" (R251, U8; log entry 9). Safe. -/
  | wordDuringCommand
  deriving DecidableEq, Repr

end Sys2Proof.Machine
end

