-- ==== Sys2Proof/Machine/Ops.lean ====
section
/-!
DEFINITION. The operations the commands share: reading and writing a memory entry, the response of
a command, the error entry and the way back from it, offering bytes to a sink.
-/

namespace Sys2Proof.Machine

/-- The canonical form of a memory of `size` entries: addresses strictly rising and below `size`.
An unlisted entry has no value, so no listed entry equals one. -/
abbrev Memory.wf {w : Nat} (size : Nat) (m : Memory w) : Prop :=
  m.Pairwise (fun c d => c.1 < d.1) ∧ ∀ c ∈ m, c.1 < size

/-- The value of entry `a`, `none` when it has none. -/
def Memory.read {w : Nat} : Memory w → Nat → Option (BitVec w)
  | [], _ => none
  | (b, v) :: m, a => if a = b then some v else Memory.read m a

/-- Entry `a` becomes `v`, in address order. -/
def Memory.write {w : Nat} : Memory w → Nat → BitVec w → Memory w
  | [], a, v => [(a, v)]
  | (b, u) :: m, a, v =>
    if a < b then (a, v) :: (b, u) :: m
    else if a = b then (a, v) :: m
    else (b, u) :: Memory.write m a v

/-- How many entries each memory has (R50). -/
def Space.entries : Space → Nat
  | .pal => Config.palCap
  | .idx => Config.idxCap
  | .scr => Config.scrCap

/-- `MemRead` of one entry (00_scope.md section 8): an entry without a value faults (log entry 5). -/
def readEntry {w : Nat} (sp : Space) (m : Memory w) (a : Nat) : Except Fault (BitVec w) :=
  match m.read a with
  | some v => .ok v
  | none => .error (.unwrittenEntry sp a)

/-- `MemWrite` of one entry: an entry number the memory does not have faults (log entry 7). -/
def writeEntry {w : Nat} (sp : Space) (m : Memory w) (a : Nat) (v : BitVec w) :
    Except Fault (Memory w) :=
  if a < sp.entries then .ok (m.write a v) else .error (.noSuchEntry sp a)

/-- Entries `0 .. n-1`, in order; the lowest one without a value faults. -/
def readUpto {w : Nat} (sp : Space) (m : Memory w) : Nat → Except Fault (List (BitVec w))
  | 0 => .ok []
  | n + 1 =>
    match readUpto sp m n with
    | .error f => .error f
    | .ok vs =>
      match readEntry sp m n with
      | .error f => .error f
      | .ok v => .ok (vs ++ [v])

/-- The status field `st` of a response (R89). -/
def Status.code : Status → BitVec 2
  | .ok => 0#2
  | .error => 1#2
  | .refused => 2#2

/-- The error codes (R200). -/
def ErrKind.code : ErrKind → BitVec 3
  | .capacity => 1#3
  | .empty => 2#3
  | .shape => 3#3
  | .sinkIo => 4#3
  | .illegalCmd => 5#3

/-- The response word: `rsp[31:18] = 0`, `rsp[17:16] = st`, `rsp[15:0] = val` (R89). -/
def responseWord (st : Status) (val : Colour) : Word := 0#14 ++ st.code ++ val

/-- The host receives the response word of a command. -/
def State.answer (s : State) (st : Status) (val : Colour) : State :=
  { s with responses := s.responses ++ [responseWord st val] }

/-- `respond(st, val)`: the command ends and returns its response word (00_scope.md section 8, R89). -/
def respond (st : Status) (val : Colour) (s : State) : Host.Outcome State Fault Refusal :=
  .next (s.answer st val)

/-- `ERR` is written by an error only when it is 0: first error wins (R206). -/
def State.latch (s : State) (k : ErrKind) : State :=
  { s with err := if s.err = 0#3 then k.code else s.err }

/-- `raise E`, the error entry (R210): the code is latched if none is, the command ends, and the
response is `ERROR` with the code of the error just raised. -/
def raise (k : ErrKind) (s : State) : Host.Outcome State Fault Refusal :=
  respond .error (k.code.setWidth 16) (s.latch k)

/-- `refuse`: the response is `REFUSED` with `val = ERR` and nothing changes (R207). -/
def refuse (s : State) : Host.Outcome State Fault Refusal :=
  respond .refused (s.err.setWidth 16) s

/-- The way out of the error state, shared by `CLR` and reset (R41, R211, R241): every register 0,
every `PAL` and `IDX` entry unwritten, `SCR` unspecified (log entry 6), the host's side untouched. -/
def State.coreReset (s : State) : State :=
  { s with
    err := 0#3, plen := 0#8, wptr := 0#9, qout := 0#16, pdone := false, edone := false,
    pal := [], idx := [], scr := [] }

/-- What becomes of one byte offered to a sink. -/
inductive PutAnswer where
  | accepted
  | failed
  | silent
  | reset
  deriving DecidableEq, Repr

/-- The answer to byte `n` of a command's stream (R42, U10). -/
def SinkAnswer.toByte : SinkAnswer → Nat → PutAnswer
  | .acceptAll, _ => .accepted
  | .failAt j, n => if n = j then .failed else .accepted
  | .silentAt j, n => if n = j then .silent else .accepted
  | .resetAt j, n => if n = j then .reset else .accepted

/-- The byte is the new last byte of the sink (R55). -/
def State.append (s : State) (x : Sink) (b : Byte) : State :=
  match x with
  | .P => { s with sinkP := s.sinkP ++ [b] }
  | .S => { s with sinkS := s.sinkS ++ [b] }

/-- `SinkPut` of one byte after another, the first of them byte `n` of the command's stream. It ends
with `accepted` when every byte was, else with the answer that ended it, and no byte is offered after
that (R55, R204). A reset that the host gives after the last byte and before the response counts. -/
def putBytes (x : Sink) : Nat → List Byte → State → State × PutAnswer
  | n, [], s => (s, if s.sinkAnswer = .resetAt n then .reset else .accepted)
  | n, b :: bs, s =>
    match s.sinkAnswer.toByte n with
    | .accepted => putBytes x (n + 1) bs (s.append x b)
    | .failed => (s, .failed)
    | .silent => (s, .silent)
    | .reset => (s, .reset)

/-- How a command that offers bytes ends: completion when all were accepted, `SINK_IO` at a failed
byte (R204), stuck at a byte never answered (R257), abandoned without a response by a reset (R240). -/
def finishPut (x : Sink) (r : State × PutAnswer) (done : State → State) (val : Colour) :
    Host.Outcome State Fault Refusal :=
  match r.2 with
  | .accepted => respond .ok val (done r.1)
  | .failed => raise .sinkIo r.1
  | .silent => .fault (.sinkSilent x)
  | .reset => .next r.1.coreReset

/-- The tests `WRPAL` and `ENCODE` share, in order: refused while an error is latched, `EMPTY`,
`SHAPE` (R209); `run` is what follows them. -/
def whenImageComplete (s : State) (run : Host.Outcome State Fault Refusal) :
    Host.Outcome State Fault Refusal :=
  if s.err ≠ 0#3 then refuse s
  else if s.plen = 0#8 then raise .empty s
  else if s.wptr ≠ 256#9 then raise .shape s
  else run

end Sys2Proof.Machine
end

