-- ==== Sys2Proof/Machine/Flags.lean ====
section
/-!
DEFINITION. The status view and its four flags (10_state.md R26, R27, R28): `ERRF` and `FULL` are
computed when they are read, `PDONE` and `EDONE` are stored.
-/

namespace Sys2Proof.Machine

/-- `ERRF = (ERR != 0)`. -/
def State.errf (s : State) : Bool := s.err != 0#3

/-- `FULL = (WPTR == 256)`. -/
def State.full (s : State) : Bool := s.wptr == 256#9

/-- `STATUS`, a 16-bit read-only view: `ERRF` 0, `FULL` 1, `PDONE` 2, `EDONE` 3, the rest 0 (R28). -/
def State.status (s : State) : BitVec 16 :=
  0#12 ++ BitVec.ofBool s.edone ++ BitVec.ofBool s.pdone ++ BitVec.ofBool s.full
    ++ BitVec.ofBool s.errf

/-- The palette stream was emitted in full (R26). -/
def State.setPdone (s : State) : State := { s with pdone := true }

/-- The sprite stream was emitted in full (R27). -/
def State.setEdone (s : State) : State := { s with edone := true }

end Sys2Proof.Machine
end

