-- ==== Sys2Proof/Machine/Operands.lean ====
section
/-!
DEFINITION. What the operands and the implicit operands of a command name: a register number
(10_state.md R29), a palette position, an index-buffer entry, the whole palette, the whole frame.
-/

namespace Sys2Proof.Machine

/-- `REG[n]`, zero-extended to 16 bits; 5..255 name no register (R29). -/
def State.reg (s : State) (n : Byte) : Option Colour :=
  match n.toNat with
  | 0 => some s.status
  | 1 => some (s.err.setWidth 16)
  | 2 => some (s.plen.setWidth 16)
  | 3 => some (s.wptr.setWidth 16)
  | 4 => some s.qout
  | _ => none

/-- `PAL[k]` (R30). -/
def State.palEntry (s : State) (k : Nat) : Except Fault Colour := readEntry .pal s.pal k

/-- `IDX[a]` (R31). -/
def State.idxEntry (s : State) (a : Nat) : Except Fault Byte := readEntry .idx s.idx a

/-- `PAL[0..PLEN-1]`, the palette in insertion order (R30). -/
def State.palette (s : State) : Except Fault (List Colour) := readUpto .pal s.pal s.plen.toNat

/-- `IDX[0..255]`, the whole index buffer, entry `a` at position `a` (R31, R52). (Irreducible, so that
a proof about a frame does not set out to read it entry by entry.) -/
@[irreducible] def State.frame (s : State) : Except Fault (List Byte) := readUpto .idx s.idx Config.idxCap

end Sys2Proof.Machine
end

