-- ==== Sys2Proof/Machine/BitplaneEncoder.lean ====
section
/-!
DEFINITION. The BitplaneEncoder and `ENCODE` (42_bitplane_encoder.md), operationally as R140 gives
it: per tile, clear the scratch memory, set up, pack, emit.
-/

namespace Sys2Proof.Machine

/-- `bit(v, n) = (v >> n) & 1` (00_scope.md section 8). -/
def bitOf (v : Byte) (n : Nat) : Byte := (v >>> n) &&& 1#8

/-- `cell(bp, r, c)`, the scratch cell of bitplane `bp`, row `r`, column `c` (R144). -/
def cell (bp r c : Nat) : Nat :=
  (Config.tile * ((bp >>> 1) &&& 1) + r) * Config.stride + Config.tile * (bp &&& 1) + c

/-- `(y0 + r) * 16 + x0 + c`, the index-buffer entry of a tile's pixel (R53, R140). -/
def pixelEntry (t r c : Nat) : Nat :=
  (Config.tile * ((t >>> 1) &&& 1) + r) * Config.stride + Config.tile * (t &&& 1) + c

/-- `for s = 0 .. 255: SCR[s] <- 0` (R145). -/
def clearScratch (m : Memory 8) : Memory 8 :=
  (List.range Config.scrCap).foldl (fun m a => m.write a 0#8) m

/-- Step 1 on one pixel: bit `bp` of its index goes to `cell(bp, r, c)` (R143). -/
def setupPixel (v : Byte) (r c : Nat) (m : Memory 8) : Memory 8 :=
  (List.range Config.bpp).foldl (fun m bp => m.write (cell bp r c) (bitOf v bp)) m

/-- Step 1, setup: every pixel of the tile, rows, then columns, then bitplanes (R143). `frame` has
256 entries and `pixelEntry` is below 256, so the default is never taken. -/
def setupTile (frame : List Byte) (t : Nat) (m : Memory 8) : Memory 8 :=
  (List.range Config.tile).foldl (fun m r =>
    (List.range Config.tile).foldl (fun m c =>
      setupPixel (frame.getD (pixelEntry t r c) 0#8) r c m) m) m

/-- The 8-bit accumulator over columns `c, c+1, ..`: shift left, then exclusive-or the next bit in
(R146). -/
def packColumns (m : Memory 8) (bp r : Nat) : List Nat → Byte → Except Fault Byte
  | [], acc => .ok acc
  | c :: cs, acc =>
    match readEntry .scr m (cell bp r c) with
    | .ok b => packColumns m bp r cs ((acc <<< 1) ^^^ b)
    | .error f => .error f

/-- Step 2 on one row: the packed byte overwrites the row's first column (R146, R147). -/
def packRow (m : Memory 8) (bp r : Nat) : Except Fault (Memory 8) :=
  match packColumns m bp r (List.range Config.tile) 0#8 with
  | .ok acc => .ok (m.write (cell bp r 0) acc)
  | .error f => .error f

/-- Step 2 over a list of rows. -/
def packRows : List (Nat × Nat) → Memory 8 → Except Fault (Memory 8)
  | [], m => .ok m
  | (bp, r) :: rest, m =>
    match packRow m bp r with
    | .ok m' => packRows rest m'
    | .error f => .error f

/-- The rows in the order step 2 packs them: bitplanes, then rows (R140). -/
def packOrder : List (Nat × Nat) :=
  (List.range Config.bpp).flatMap fun bp => (List.range Config.tile).map fun r => (bp, r)

/-- The rows in the order step 3 emits them: bitplanes 0 and 1 row by row, then 2 and 3 (R148). -/
def emitOrder : List (Nat × Nat) :=
  (List.range Config.tile).flatMap (fun r => [(0, r), (1, r)]) ++
    (List.range Config.tile).flatMap (fun r => [(2, r), (3, r)])

/-- Step 3: the first column of each row, in the order given. -/
def emitRows (m : Memory 8) : List (Nat × Nat) → Except Fault (List Byte)
  | [] => .ok []
  | (bp, r) :: rest =>
    match readEntry .scr m (cell bp r 0) with
    | .error f => .error f
    | .ok b =>
      match emitRows m rest with
      | .ok bs => .ok (b :: bs)
      | .error f => .error f

/-- The scratch memory of tile `t` after steps 1 and 2, from the content it had before. (Irreducible,
so that a proof about a tile does not set out to compute one.) -/
@[irreducible] def packedScratch (frame : List Byte) (t : Nat) (m : Memory 8) : Except Fault (Memory 8) :=
  packRows packOrder (setupTile frame t (clearScratch m))

/-- One tile: clear, setup, pack, and the emission of its 32 bytes, bytes `32 t ..` of the stream
(R140, R142). -/
def encodeTile (frame : List Byte) (t : Nat) (s : State) : Except Fault (State × PutAnswer) :=
  match packedScratch frame t s.scr with
  | .error f => .error f
  | .ok m =>
    match emitRows m emitOrder with
    | .error f => .error f
    | .ok bs => .ok (putBytes .S (Config.tileBytes * t) bs { s with scr := m })

/-- The tiles one after another; none is begun unless every byte before it was accepted (R142,
R152). -/
def encodeTiles (frame : List Byte) : List Nat → State → Except Fault (State × PutAnswer)
  | [], s => .ok (s, .accepted)
  | t :: ts, s =>
    match encodeTile frame t s with
    | .error f => .error f
    | .ok r => if r.2 = .accepted then encodeTiles frame ts r.1 else .ok r

/-- `ENCODE` (R140). -/
def execEncode (s : State) : Host.Outcome State Fault Refusal :=
  whenImageComplete s <|
    match s.frame with
    | .error f => .fault f
    | .ok frame =>
      match encodeTiles frame (List.range Config.ntiles) s with
      | .error f => .fault f
      | .ok r => finishPut .S r State.setEdone (BitVec.ofNat 16 Config.spriteBytes)

end Sys2Proof.Machine
end

