-- ==== Sys2Proof/Machine/Quantizer.lean ====
section
/-!
DEFINITION. The ColorQuantizer and `QUANT` (40_quantizer.md).
-/

namespace Sys2Proof.Machine

/-- A channel truncated to its five high bits: `(X & 0xF8) >> 3` (R110). -/
def channel5 (x : Byte) : Colour := ((x &&& 0xF8#8) >>> 3).setWidth 16

/-- `quant(R, G, B) = r5 | (g5 << 5) | (b5 << 10)` (R110). -/
def quant (r g b : Byte) : Colour := channel5 r ||| channel5 g <<< 5 ||| channel5 b <<< 10

/-- `QUANT R, G, B` (R112): never refused, raises nothing. -/
def execQuant (r g b : Byte) (s : State) : Host.Outcome State Fault Refusal :=
  respond .ok (quant r g b) { s with qout := quant r g b }

end Sys2Proof.Machine
end

