-- ==== Sys2Proof/Machine/PaletteBuilder.lean ====
section
/-!
DEFINITION. The PaletteIndexer and `PIX` (41_palette_builder.md).
-/

namespace Sys2Proof.Machine

/-- `lookup(c)`: the least position that holds `c`, or `none` (R124), by exact equality (R123). -/
def lookup (c : Colour) : List Colour → Option Nat
  | [] => none
  | d :: ds => if d = c then some 0 else (lookup c ds).map (· + 1)

/-- `IDX[WPTR] <- v; WPTR <- WPTR + 1; respond(OK, v)` (R120). -/
def acceptPixel (v : Byte) (s : State) : Host.Outcome State Fault Refusal :=
  match writeEntry .idx s.idx s.wptr.toNat v with
  | .ok idx => respond .ok (v.setWidth 16) { s with idx := idx, wptr := s.wptr + 1#9 }
  | .error f => .fault f

/-- `PAL[PLEN] <- c; PLEN <- PLEN + 1` (R120). -/
def State.appendColour (s : State) (c : Colour) : State :=
  { s with pal := s.pal.write s.plen.toNat c, plen := s.plen + 1#8 }

/-- `PIX R, G, B` (R120), its tests in the order of R209: refused, `SHAPE` (R126), the colour found
(index `k + 1`, R127), `CAPACITY` (R125), the colour appended. -/
def execPix (r g b : Byte) (s : State) : Host.Outcome State Fault Refusal :=
  if s.err ≠ 0#3 then refuse s
  else if s.wptr = 256#9 then raise .shape s
  else
    match s.palette with
    | .error f => .fault f
    | .ok pal =>
      match lookup (quant r g b) pal with
      | some k => acceptPixel (BitVec.ofNat 8 (k + 1)) s
      | none =>
        if s.plen = 255#8 then raise .capacity s
        else acceptPixel (s.plen + 1#8) (s.appendColour (quant r g b))

end Sys2Proof.Machine
end

