-- ==== Sys2Proof/Machine/PaletteWriter.lean ====
section
/-!
DEFINITION. The PaletteWriter boundary and `WRPAL` (43_palette_writer.md).
-/

namespace Sys2Proof.Machine

/-- A 16-bit value as two bytes, `(value & 0xFF)` then `((value >> 8) & 0xFF)` (R56, R171). -/
def littleEndian (v : Colour) : List Byte :=
  [(v &&& 0xFF#16).setWidth 8, ((v >>> 8) &&& 0xFF#16).setWidth 8]

/-- The palette stream: the alpha slot, then every colour in insertion order (R170, R171). -/
def paletteStream (pal : List Colour) : List Byte :=
  littleEndian Config.alpha ++ pal.flatMap littleEndian

/-- `WRPAL` (R170). -/
def execWrpal (s : State) : Host.Outcome State Fault Refusal :=
  whenImageComplete s <|
    match s.palette with
    | .error f => .fault f
    | .ok pal =>
      finishPut .P (putBytes .P 0 (paletteStream pal) s) State.setPdone
        (2#16 + 2#16 * s.plen.setWidth 16)

end Sys2Proof.Machine
end

