-- ==== Sys2Proof/Machine/System.lean ====
section
/-!
DEFINITION. The system and read-out commands `CLR`, `RDREG`, `RDPAL`, `RDIDX`
(44_system_readout.md). None of them is ever refused (R184).
-/

namespace Sys2Proof.Machine

/-- `CLR` (R180): the reset state, executed whatever `ERR` holds. -/
def execClr (s : State) : Host.Outcome State Fault Refusal := respond .ok 0#16 s.coreReset

/-- `RDREG n` (R181). -/
def execRdreg (n : Byte) (s : State) : Host.Outcome State Fault Refusal :=
  match s.reg n with
  | some v => respond .ok v s
  | none => raise .illegalCmd s

/-- `RDPAL k` (R182). -/
def execRdpal (k : Byte) (s : State) : Host.Outcome State Fault Refusal :=
  if s.plen.toNat ≤ k.toNat then raise .illegalCmd s
  else
    match s.palEntry k.toNat with
    | .ok v => respond .ok v s
    | .error f => .fault f

/-- `RDIDX a` (R183). -/
def execRdidx (a : Byte) (s : State) : Host.Outcome State Fault Refusal :=
  if s.wptr.toNat ≤ a.toNat then raise .illegalCmd s
  else
    match s.idxEntry a.toNat with
    | .ok v => respond .ok (v.setWidth 16) s
    | .error f => .fault f

end Sys2Proof.Machine
end

