-- ==== Sys2Proof/Machine/Dispatch.lean ====
section
/-!
DEFINITION. One arm per command, each a direct call of its meaning.
-/

namespace Sys2Proof.Machine

def exec (i : Instr) (s : State) : Host.Outcome State Fault Refusal :=
  match i with
  | .clr => Sys2Proof.Machine.execClr s
  | .quant r g b => Sys2Proof.Machine.execQuant r g b s
  | .pix r g b => Sys2Proof.Machine.execPix r g b s
  | .wrpal => Sys2Proof.Machine.execWrpal s
  | .encode => Sys2Proof.Machine.execEncode s
  | .rdreg n => Sys2Proof.Machine.execRdreg n s
  | .rdpal k => Sys2Proof.Machine.execRdpal k s
  | .rdidx a => Sys2Proof.Machine.execRdidx a s

end Sys2Proof.Machine
end

