-- ==== Sys2Proof/Decode.lean ====
section
/-!
DEFINITION. The decoder, total on every 32-bit word (30_encoding.md R87), by the match and mask
columns of R86; a word of no row is rejected under the name of the clause of R88 it falls under.
After it the encoder, from the field tables of R82 to R84.
-/

namespace Sys2Proof

/-- Why a word is no command (R88). All three raise the same `ILLEGAL_CMD` (log entry 14). -/
inductive Illegal where
  /-- `op` is 0 or 9..15. -/
  | reservedOpcode
  /-- `rsv != 0`. -/
  | reservedBits
  /-- Operand bits a format says are 0 are not. -/
  | operandBits
  deriving DecidableEq, Repr

/-- One row of the opcode map. -/
structure OpcodeRow where
  pattern : Word
  mask : Word
  build : Word → Instr

/-- `R = cmd[23:16]` (R83). -/
def fieldR (w : Word) : Byte := w.extractLsb' 16 8

/-- `G = cmd[15:8]` (R83). -/
def fieldG (w : Word) : Byte := w.extractLsb' 8 8

/-- `B = cmd[7:0]` (R83), and `n = cmd[7:0]` of format N (R84). -/
def fieldLow (w : Word) : Byte := w.extractLsb' 0 8

/-- The opcode map (R86), in the table's order. -/
def opcodeRows : List OpcodeRow :=
  [ ⟨0x10000000#32, 0xFFFFFFFF#32, fun _ => .clr⟩,
    ⟨0x20000000#32, 0xFF000000#32, fun w => .quant (fieldR w) (fieldG w) (fieldLow w)⟩,
    ⟨0x30000000#32, 0xFF000000#32, fun w => .pix (fieldR w) (fieldG w) (fieldLow w)⟩,
    ⟨0x40000000#32, 0xFFFFFFFF#32, fun _ => .wrpal⟩,
    ⟨0x50000000#32, 0xFFFFFFFF#32, fun _ => .encode⟩,
    ⟨0x60000000#32, 0xFFFFFF00#32, fun w => .rdreg (fieldLow w)⟩,
    ⟨0x70000000#32, 0xFFFFFF00#32, fun w => .rdpal (fieldLow w)⟩,
    ⟨0x80000000#32, 0xFFFFFF00#32, fun w => .rdidx (fieldLow w)⟩ ]

/-- A word is the command of a row exactly when `(cmd & mask) == match` (R86). -/
def OpcodeRow.hits (row : OpcodeRow) (w : Word) : Bool := w &&& row.mask == row.pattern

/-- The clause of R88 a word of no row falls under, the opcode first. -/
def whyIllegal (w : Word) : Illegal :=
  let op := (w >>> 28).toNat
  if op = 0 ∨ 9 ≤ op then .reservedOpcode
  else if w &&& 0x0F000000#32 ≠ 0#32 then .reservedBits
  else .operandBits

/-- Decoding is total: the row that matches gives the command, and a word of no row is illegal
(R87). -/
def decode (w : Word) : Except Illegal Instr :=
  match opcodeRows.find? fun row => row.hits w with
  | some row => .ok (row.build w)
  | none => .error (whyIllegal w)

/-- Format Z: `op`, `rsv = 0`, `arg = 0` (R82). -/
def formatZ (op : BitVec 4) : Word := op ++ 0#4 ++ 0#24

/-- Format C: `op`, `rsv = 0`, `R`, `G`, `B` (R83). -/
def formatC (op : BitVec 4) (r g b : Byte) : Word := op ++ 0#4 ++ r ++ g ++ b

/-- Format N: `op`, `rsv = 0`, sixteen zero bits, `n` (R84). -/
def formatN (op : BitVec 4) (n : Byte) : Word := op ++ 0#4 ++ 0#16 ++ n

/-- The command word of a command (R82 to R84, opcode numbers R86). -/
def encode : Instr → Word
  | .clr => formatZ 1#4
  | .quant r g b => formatC 2#4 r g b
  | .pix r g b => formatC 3#4 r g b
  | .wrpal => formatZ 4#4
  | .encode => formatZ 5#4
  | .rdreg n => formatN 6#4 n
  | .rdpal k => formatN 7#4 k
  | .rdidx a => formatN 8#4 a

/-- The word of a table row's bits: a command is one 32-bit word carried whole (R59, R80), so the
row's `nbits` bits are its low bits and the rest are 0 (log entry 3). -/
def tableWord (nbits w : Nat) : Word := BitVec.ofNat 32 (w % 2 ^ nbits)

/-- What the decoder reads from an instruction whose bits are `w`, numbered as
spec/opcode_table.json numbers them. -/
def decodeTableWord (nbits w : Nat) : Option Instr := (decode (tableWord nbits w)).toOption

end Sys2Proof
end

