-- ==== Sys2Proof/Machine/Fetch.lean ====
section
/-!
DEFINITION. Taking the host's next action. The block fetches no instructions: command words come
from the host one at a time (10_state.md R21, 20_memory.md R63, R68).
-/

namespace Sys2Proof.Machine

/-- What the core finds at its command port. -/
inductive Fetched where
  /-- Nothing: it is idle (R217). -/
  | idle
  /-- A command (R87). -/
  | run (i : Instr)
  /-- A word that decodes to no command (R88). -/
  | illegal
  /-- A reset (R240). -/
  | reset
  /-- A word issued too early (R251). -/
  | tooEarly
  deriving DecidableEq, Repr

/-- What the host's next action is. -/
def fetch (s : State) : Fetched :=
  match s.inbox with
  | [] => .idle
  | .command w _ :: _ =>
    match decode w with
    | .ok i => .run i
    | .error _ => .illegal
  | .reset :: _ => .reset
  | .tooEarly _ :: _ => .tooEarly

/-- The state in which that action is carried out: it is taken out of the host's list ("consumed as
issued", R68), and a command comes with the sink's answers to it (R42). -/
def State.consume (s : State) : State :=
  match s.inbox with
  | [] => s
  | .command _ ans :: rest => { s with inbox := rest, sinkAnswer := ans }
  | .reset :: rest => { s with inbox := rest }
  | .tooEarly _ :: rest => { s with inbox := rest }

/-- An illegal word raises `ILLEGAL_CMD` and has no other effect (R88, R205). -/
def illegalWord (s : State) : Host.Outcome State Fault Refusal := raise .illegalCmd s

/-- Reset between commands: the core's reset state, no response, the sinks untouched (R240, R241). -/
def resetEvent (s : State) : Host.Outcome State Fault Refusal := .next s.coreReset

/-- The host issues word `w` next, under the sink's answers as they stand. -/
def State.issue (s : State) (w : Word) : State :=
  { s with inbox := .command w s.sinkAnswer :: s.inbox }

end Sys2Proof.Machine
end

