-- ==== Sys2Proof/Machine/Step.lean ====
section
/-!
DEFINITION. One step: the host's next action, carried out whole (20_memory.md R63).
-/

namespace Sys2Proof.Machine

/-- One step. With no action of the host the core is idle and keeps all state (R217); a command is
executed wholly before the next is taken (R63). -/
def step (s : State) : Host.Outcome State Fault Refusal :=
  match fetch s with
  | .idle => .next s
  | .run i => exec i s.consume
  | .illegal => illegalWord s.consume
  | .reset => resetEvent s.consume
  | .tooEarly => .refused .wordDuringCommand

/-- The state in which the host issues the word of a table row next (log entry 3). -/
def State.withFetchWord (s : State) (nbits w : Nat) : State := s.issue (tableWord nbits w)

end Sys2Proof.Machine
end

