-- ==== Sys2Proof/Safety.lean ====
section
/-!
DEFINITION. What the claims are stated in: the invariants of 10_state.md section 4, when a step is
admitted, how a sink answers a whole stream, and the closed forms the spec gives beside its
pseudocode (R113, R130, R150, R171).
-/

namespace Sys2Proof.Machine

/-! ### Invariants -/

/-- Every memory is in canonical form and within its size (R50). -/
abbrev State.MemoryForm (s : State) : Prop :=
  s.pal.wf Config.palCap ∧ s.idx.wf Config.idxCap ∧ s.scr.wf Config.scrCap

/-- `WPTR <= 256`, `PLEN <= WPTR`, and `PLEN == 0` exactly when `WPTR == 0` (R38). `PLEN <= 255` is
its width. -/
abbrev State.Counts (s : State) : Prop :=
  s.wptr.toNat ≤ 256 ∧ s.plen.toNat ≤ s.wptr.toNat ∧ (s.plen = 0#8 ↔ s.wptr = 0#9)

/-- Exactly the entries below `PLEN` and below `WPTR` are written (R30, R31). -/
abbrev State.Written (s : State) : Prop :=
  (∀ k < Config.palCap, (s.pal.read k).isSome ↔ k < s.plen.toNat) ∧
  (∀ a < Config.idxCap, (s.idx.read a).isSome ↔ a < s.wptr.toNat)

/-- Palette uniqueness (R35). -/
abbrev State.PaletteUnique (s : State) : Prop :=
  ∀ k < s.plen.toNat, ∀ j < k, s.pal.read j ≠ s.pal.read k

/-- First-seen order: the smallest `a` with `IDX[a] == k + 1` increases with `k`, and `IDX[0] == 1`
whenever a pixel was accepted (R36). -/
abbrev State.FirstSeen (s : State) : Prop :=
  (∀ k < s.plen.toNat, ∀ j < k, ∃ a < s.wptr.toNat,
    s.idx.read a = some (BitVec.ofNat 8 (j + 1)) ∧
      ∀ b ≤ a, s.idx.read b ≠ some (BitVec.ofNat 8 (k + 1))) ∧
  (1 ≤ s.wptr.toNat → s.idx.read 0 = some 1#8)

/-- Index validity, `1 <= IDX[a] <= PLEN` (R37). -/
abbrev State.IndexValid (s : State) : Prop :=
  ∀ a < s.wptr.toNat, ∀ v ∈ s.idx.read a, 1 ≤ v.toNat ∧ v.toNat ≤ s.plen.toNat

/-- Every palette entry is used (R38). -/
abbrev State.PaletteUsed (s : State) : Prop :=
  ∀ k < s.plen.toNat, ∃ a < s.wptr.toNat, s.idx.read a = some (BitVec.ofNat 8 (k + 1))

/-- Bit 15 of every written palette entry (R39) and of `QOUT` (R22) is 0. -/
abbrev State.HighBitZero (s : State) : Prop :=
  (∀ k < s.plen.toNat, ∀ v ∈ s.pal.read k, v.getLsbD 15 = false) ∧ s.qout.getLsbD 15 = false

/-- A completion flag is set only over a whole image (R40). -/
abbrev State.DoneMeansWhole (s : State) : Prop :=
  s.pdone = true ∨ s.edone = true → s.wptr = 256#9 ∧ s.plen ≠ 0#8

/-- `ERR` holds 0..5; 6 and 7 never occur (R25). -/
abbrev State.ErrLegal (s : State) : Prop := s.err.toNat ≤ 5

/-- What holds "in every state reachable from reset by any sequence of commands" (10_state.md
section 4). -/
structure State.Inv (s : State) : Prop where
  memory : s.MemoryForm
  counts : s.Counts
  written : s.Written
  unique : s.PaletteUnique
  firstSeen : s.FirstSeen
  valid : s.IndexValid
  used : s.PaletteUsed
  highBit : s.HighBitZero
  done : s.DoneMeansWhole
  err : s.ErrLegal

/-! ### Admitted steps -/

/-- The sink answers every byte (the fairness assumption of R257). -/
def SinkAnswer.fair : SinkAnswer → Bool
  | .silentAt _ => false
  | _ => true

/-- The host's next action is one it is not "assumed never to" take (R244, R251), and its sink
answers every byte (R257). -/
def State.Admitted (s : State) : Bool :=
  match s.inbox with
  | .command _ ans :: _ => ans.fair
  | .tooEarly _ :: _ => false
  | _ => true

/-- A stream of `n` bytes is accepted whole and its response is given. -/
def SinkAnswer.completes (n : Nat) : SinkAnswer → Bool
  | .acceptAll => true
  | .failAt j => decide (n ≤ j)
  | .silentAt j => decide (n ≤ j)
  | .resetAt j => decide (n < j)

/-- The state but for the hidden scratch memory (R32, R158). -/
def State.withoutScratch (s : State) : State := { s with scr := [] }

/-- Two outcomes that no observer tells apart: equal but for the scratch memory of the next state. -/
def sameButScratch : Host.Outcome State Fault Refusal → Host.Outcome State Fault Refusal → Prop
  | .next s, .next t => s.withoutScratch = t.withoutScratch
  | .fault f, .fault g => f = g
  | .refused r, .refused q => r = q
  | _, _ => False

/-- No image begun and no error latched, as after `CLR` or reset (R41). -/
abbrev State.EmptyImage (s : State) : Prop :=
  s.err = 0#3 ∧ s.plen = 0#8 ∧ s.wptr = 0#9 ∧ s.pal = [] ∧ s.idx = []

/-! ### The spec's closed forms -/

/-- `expand(q)`, the three 5-bit fields each shifted left by 3 (R113). -/
def expand (q : Colour) : Byte × Byte × Byte :=
  ((q.extractLsb' 0 5).setWidth 8 <<< 3, (q.extractLsb' 5 5).setWidth 8 <<< 3,
    (q.extractLsb' 10 5).setWidth 8 <<< 3)

/-- Byte `n` of the palette stream of the palette `p`: entry 0 is the alpha slot, entry `i` is
`PAL[i - 1]`, each low byte first (R171). -/
def paletteByte (p : Nat → Colour) (n : Nat) : Byte :=
  let v := if n / 2 = 0 then 0xFFFF#16 else p (n / 2 - 1)
  if n % 2 = 0 then v.extractLsb' 0 8 else v.extractLsb' 8 8

/-- Byte `n` of the sprite stream of the frame `f` (R150). -/
def spriteByte (f : Nat → Byte) (n : Nat) : Byte :=
  let t := n >>> 5
  let half := (n >>> 4) &&& 1
  let r := (n >>> 1) &&& 7
  let bp := 2 * half + (n &&& 1)
  let base := (8 * ((t >>> 1) &&& 1) + r) * 16 + 8 * (t &&& 1)
  (List.range 8).foldl
    (fun acc c => acc + ((if (f (base + c)).getLsbD bp then 1#8 else 0#8) <<< (7 - c))) 0#8

/-- The `PLEN` colours' palette stream (R171). -/
def paletteBytes (p : Nat → Colour) (plen : Nat) : List Byte :=
  (List.range (2 + 2 * plen)).map (paletteByte p)

/-- The 128 bytes of a sprite (R149, R150). -/
def spriteBytes (f : Nat → Byte) : List Byte := (List.range 128).map (spriteByte f)

/-- A pixel sample: three 8-bit channels. -/
abbrev Sample := Byte × Byte × Byte

/-- One round of the PaletteIndexer's loop (R130). -/
def indexerRound (r : List Colour × List Byte) (p : Sample) : List Colour × List Byte :=
  let c := quant p.1 p.2.1 p.2.2
  if c ∈ r.1 then (r.1, r.2 ++ [BitVec.ofNat 8 (r.1.idxOf c + 1)])
  else (r.1 ++ [c], r.2 ++ [BitVec.ofNat 8 (r.1.length + 1)])

/-- The PaletteIndexer as a function of the pixel list: the palette and the indices (R130). -/
def indexer (ps : List Sample) : List Colour × List Byte := ps.foldl indexerRound ([], [])

/-- `PIX` for each sample in turn, as long as each answers a next state (R130, R243). -/
def feedPixels : List Sample → State → Host.Outcome State Fault Refusal
  | [], s => .next s
  | p :: ps, s =>
    match exec (.pix p.1 p.2.1 p.2.2) s with
    | .next t => feedPixels ps t
    | r => r

end Sys2Proof.Machine
end

