-- ==== Sys2Proof/WellFormed.lean ====
section
/-!
DEFINITION. Which command words are legal, read off the field rules of 30_encoding.md (R81 to R84,
R88) and not off the match and mask columns the decoder uses, so that the two can be held against
each other. An `Instr` needs no check of its own: its operands' types are the encoding's fields.
-/

namespace Sys2Proof

/-- The three operand formats (R82, R83, R84). -/
inductive Format where
  | Z
  | C
  | N
  deriving DecidableEq, Repr

/-- `op = cmd[31:28]` (R81). -/
def opField (w : Word) : BitVec 4 := w.extractLsb' 28 4

/-- `rsv = cmd[27:24]` (R81). -/
def rsvField (w : Word) : BitVec 4 := w.extractLsb' 24 4

/-- `arg = cmd[23:0]` (R81). -/
def argField (w : Word) : BitVec 24 := w.extractLsb' 0 24

/-- `cmd[23:8]`, zero in format N (R84). -/
def highArgField (w : Word) : BitVec 16 := w.extractLsb' 8 16

/-- The format of each opcode of the map; 0 and 9 to 15 are reserved (R86). -/
def formatOf (op : BitVec 4) : Option Format :=
  match op.toNat with
  | 1 | 4 | 5 => some .Z
  | 2 | 3 => some .C
  | 6 | 7 | 8 => some .N
  | _ => none

/-- The operand bits a format says are 0 are 0 (R82, R83, R84). -/
def operandLegal (f : Format) (w : Word) : Bool :=
  match f with
  | .Z => argField w == 0#24
  | .C => true
  | .N => highArgField w == 0#16

/-- A word is legal unless R88 calls it illegal: a reserved opcode, `rsv != 0`, or operand bits the
format says are 0. -/
def legalWord (w : Word) : Bool :=
  match formatOf (opField w) with
  | some f => rsvField w == 0#4 && operandLegal f w
  | none => false

end Sys2Proof
end

