-- ==== Sys2Proof/Certificates/Slice0/Obligations.lean ====
section
/-!
DEFINITION. The statements for the provers, from the numbered rules of spec/, file by file.
-/

open Sys2Proof Sys2Proof.Machine

/-! ### Encoding (30_encoding.md) -/

/-- Every command, with every operand, is read back from its word (R82 to R87). -/
def Obligations.DecodeUndoesEncode : Prop :=
  ∀ i : Instr, decode (encode i) = .ok i

/-- A word that decodes is the word of the command it decodes to: no word has two spellings
(R86, R87). -/
def Obligations.EncodeUndoesDecode : Prop :=
  ∀ (w : Word) (i : Instr), decode w = .ok i → encode i = w

/-- The eight rows' patterns are pairwise disjoint; the row that matches gives the command, and where
none matches the word is illegal (R86, R87). -/
def Obligations.NoWordMatchesTwoRows : Prop :=
  opcodeRows.length = 8 ∧
  ∀ w : Word,
    (opcodeRows.filter fun row => row.hits w).length ≤ 1 ∧
    (∀ row ∈ opcodeRows, w &&& row.mask = row.pattern → decode w = .ok (row.build w)) ∧
    ((∀ row ∈ opcodeRows, w &&& row.mask ≠ row.pattern) → ∃ e, decode w = .error e)

/-- A word is illegal exactly under the clauses of R88 (a reserved opcode, `rsv != 0`, format Z with
`arg != 0`, format N with `cmd[23:8] != 0`), the all-zero and the all-ones word among them, and an
illegal word raises `ILLEGAL_CMD` and has no other effect: no word that matches no row is a hint or is
tolerated. -/
def Obligations.IllegalWordsFault : Prop :=
  (∀ w : Word, (∃ e, decode w = .error e) ↔
    (opField w = 0#4 ∨ 9 ≤ (opField w).toNat ∨ rsvField w ≠ 0#4 ∨
      (formatOf (opField w) = some .Z ∧ argField w ≠ 0#24) ∨
      (formatOf (opField w) = some .N ∧ highArgField w ≠ 0#16))) ∧
  (∃ e, decode 0#32 = .error e) ∧ (∃ e, decode 0xFFFFFFFF#32 = .error e) ∧
  (∀ (s : State) (w : Word) (ans : SinkAnswer) (rest : List HostEvent) (e : Illegal),
    s.inbox = .command w ans :: rest → decode w = .error e →
    step s = .next { s with
      inbox := rest, sinkAnswer := ans,
      err := if s.err = 0#3 then 5#3 else s.err,
      responses := s.responses ++ [0x00010005#32] })

/-- The fourteen encoding examples of 30_encoding.md section 6. The names `reservedOpcode`,
`reservedBits` and `operandBits` the five illegal words are rejected under are the model's choice (log
entry 14). -/
def Obligations.SampleWordsDecode : Prop :=
  decode 0x10000000#32 = .ok .clr ∧
  decode 0x20081018#32 = .ok (.quant 8#8 16#8 24#8) ∧
  decode 0x30FF0000#32 = .ok (.pix 255#8 0#8 0#8) ∧
  decode 0x30C86432#32 = .ok (.pix 200#8 100#8 50#8) ∧
  decode 0x40000000#32 = .ok .wrpal ∧
  decode 0x50000000#32 = .ok .encode ∧
  decode 0x60000001#32 = .ok (.rdreg 1#8) ∧
  decode 0x70000003#32 = .ok (.rdpal 3#8) ∧
  decode 0x800000FF#32 = .ok (.rdidx 255#8) ∧
  decode 0x00000000#32 = .error .reservedOpcode ∧
  decode 0x31FF0000#32 = .error .reservedBits ∧
  decode 0x50000001#32 = .error .operandBits ∧
  decode 0x60000100#32 = .error .operandBits ∧
  decode 0x90000000#32 = .error .reservedOpcode

/-- The three fields of a response word, and the three status codes (R89). -/
def Obligations.ResponseWordFields : Prop :=
  (∀ (st : Status) (val : Colour),
    (responseWord st val).extractLsb' 18 14 = 0#14 ∧
    (responseWord st val).extractLsb' 16 2 = st.code ∧
    (responseWord st val).extractLsb' 0 16 = val) ∧
  Status.ok.code = 0#2 ∧ Status.error.code = 1#2 ∧ Status.refused.code = 2#2

/-! ### A step (20_memory.md R63, R68; 70_reset_and_hazards.md) -/

/-- When the host's next word decodes to a command, the step is `exec` of that command in the state
with the word taken out of the host's list and the sink's answers to it in place (R42, R63, R87). -/
def Obligations.StepRunsTheDecodedCommand : Prop :=
  ∀ (s : State) (w : Word) (ans : SinkAnswer) (rest : List HostEvent) (i : Instr),
    s.inbox = .command w ans :: rest → decode w = .ok i →
    step s = exec i { s with inbox := rest, sinkAnswer := ans }

/-- The model's two steps without a command: with no action of the host the state stays as it is (log
entry 11, deduced from R217: the idle core keeps all state), and a word issued too early is the refusal
`wordDuringCommand` (log entry 9, deduced from R251: a model gives such a run no meaning). -/
def Obligations.StepWithoutCommand : Prop :=
  (∀ s : State, s.inbox = [] → step s = .next s) ∧
  (∀ (s : State) (w : Word) (rest : List HostEvent), s.inbox = .tooEarly w :: rest →
    step s = .refused .wordDuringCommand)

/-- Reset and `CLR` have one effect on the core's state, the reset values, and neither touches a sink
(R241). The model's own here: reset between commands is an action of the host (log entry 10), and `SCR`,
which R41 leaves unspecified, has no cell with a value after either (log entry 6). -/
def Obligations.ResetAndClrAreEquivalent : Prop :=
  ∀ (s : State) (rest : List HostEvent), s.inbox = .reset :: rest →
    ∃ t u : State, step s = .next t ∧ exec .clr s = .next u ∧
      t = { State.reset with
        sinkP := s.sinkP, sinkS := s.sinkS, responses := s.responses, inbox := rest,
        sinkAnswer := s.sinkAnswer } ∧
      u = { t with responses := s.responses ++ [0#32], inbox := s.inbox }

/-- Every command word, legal or not, ends with exactly one response word, its bits 31:18 zero and
its status not 3 (R89), unless a reset abandons the command, which then gives none (R240). That only
`WRPAL` and `ENCODE` can be abandoned so is the model's choice (log entry 10): R240 speaks of a reset
during any command, and the model gives a reset during another command no action of its own. -/
def Obligations.EveryWordIsAnsweredOnce : Prop :=
  ∀ (s t : State) (w : Word) (ans : SinkAnswer) (rest : List HostEvent),
    s.inbox = .command w ans :: rest → step s = .next t →
    (∃ r : Word, t.responses = s.responses ++ [r] ∧ r.extractLsb' 18 14 = 0#14 ∧
      r.extractLsb' 16 2 ≠ 3#2) ∨
    (∃ j, ans = .resetAt j ∧ (decode w = .ok .wrpal ∨ decode w = .ok .encode) ∧
      t.responses = s.responses)

/-! ### QUANT (40_quantizer.md) -/

/-- The quantized colour by R110's formula, its `|` read as `+` and as `^` too, and bit by bit; the
mask before the shift is redundant. -/
def Obligations.QuantFormulaBitByBit : Prop :=
  ∀ r g b : Byte,
    let r5 : Colour := ((r &&& 0xF8#8) >>> 3).setWidth 16
    let g5 : Colour := ((g &&& 0xF8#8) >>> 3).setWidth 16
    let b5 : Colour := ((b &&& 0xF8#8) >>> 3).setWidth 16
    quant r g b = (r5 ||| g5 <<< 5 ||| b5 <<< 10) ∧
    quant r g b = r5 + g5 <<< 5 + b5 <<< 10 ∧
    quant r g b = (r5 ^^^ g5 <<< 5 ^^^ b5 <<< 10) ∧
    (quant r g b).extractLsb' 0 5 = r.extractLsb' 3 5 ∧
    (quant r g b).extractLsb' 5 5 = g.extractLsb' 3 5 ∧
    (quant r g b).extractLsb' 10 5 = b.extractLsb' 3 5 ∧
    (quant r g b).getLsbD 15 = false ∧
    (r &&& 0xF8#8) >>> 3 = r >>> 3

/-- Two samples quantize identically exactly when their channels agree in bits 7:3 (R111). -/
def Obligations.QuantMergesOnlyTruncatedTwins : Prop :=
  ∀ r g b r' g' b' : Byte,
    quant r g b = quant r' g' b' ↔
      r.extractLsb' 3 5 = r'.extractLsb' 3 5 ∧ g.extractLsb' 3 5 = g'.extractLsb' 3 5 ∧
      b.extractLsb' 3 5 = b'.extractLsb' 3 5

/-- Each quantized colour has exactly 512 pre-images (R111). -/
def Obligations.EachColourHas512Samples : Prop :=
  ∀ r g b : Byte,
    Set.ncard { p : Sample | quant p.1 p.2.1 p.2.2 = quant r g b } = 512

/-- Quantization is idempotent in the truncation domain (R113). -/
def Obligations.QuantIsIdempotent : Prop :=
  ∀ r g b : Byte,
    (let e := expand (quant r g b); quant e.1 e.2.1 e.2.2 = quant r g b) ∧
    expand (quant r g b) = (r &&& 0xF8#8, g &&& 0xF8#8, b &&& 0xF8#8)

/-- `QUANT`, the word `0x20000000 | R << 16 | G << 8 | B`, in every state keeps its result in `QOUT`,
returns it, and changes nothing else (R112). -/
def Obligations.QuantCommandResult : Prop :=
  ∀ (r g b : Byte) (s : State),
    decode (0x20000000#32 ||| r.setWidth 32 <<< 16 ||| g.setWidth 32 <<< 8 ||| b.setWidth 32) =
      .ok (.quant r g b) ∧
    exec (.quant r g b) s = .next { s with
      qout := quant r g b, responses := s.responses ++ [0#16 ++ quant r g b] }

/-! ### PIX (41_palette_builder.md) -/

/-- `lookup(c)` is the least position that holds `c`, or none; on an empty palette it is none; where
no colour stands twice, at most one position matches (R124, R123). -/
def Obligations.LookupIsLeastMatch : Prop :=
  (∀ (c : Colour) (pal : List Colour) (k : Nat),
    lookup c pal = some k ↔
      ∃ h : k < pal.length, pal[k] = c ∧ ∀ (j : Nat) (hj : j < k), pal[j] ≠ c) ∧
  (∀ (c : Colour) (pal : List Colour), lookup c pal = none ↔ ∀ d ∈ pal, d ≠ c) ∧
  (∀ c : Colour, lookup c [] = none) ∧
  (∀ (c : Colour) (pal : List Colour) (j k : Nat) (hj : j < pal.length) (hk : k < pal.length),
    pal.Nodup → pal[j] = c → pal[k] = c → j = k)

/-- A pixel whose colour was seen: `IDX[WPTR] <- k + 1`, `WPTR <- WPTR + 1`, response `k + 1`, nothing
else (R120, R122, R127). -/
def Obligations.PixOfSeenColour : Prop :=
  ∀ (r g b : Byte) (s : State) (p : Nat → Colour) (k : Nat),
    s.err = 0#3 → s.wptr.toNat < 256 →
    (∀ j < s.plen.toNat, s.pal.read j = some (p j)) →
    k < s.plen.toNat → p k = quant r g b → (∀ j < k, p j ≠ quant r g b) →
    exec (.pix r g b) s = .next { s with
      idx := s.idx.write s.wptr.toNat (BitVec.ofNat 8 (k + 1)),
      wptr := s.wptr + 1#9,
      responses := s.responses ++ [BitVec.ofNat 32 (k + 1)] }

/-- A pixel of a new colour: `PAL[PLEN] <- c`, `PLEN <- PLEN + 1`, `IDX[WPTR] <- PLEN`,
`WPTR <- WPTR + 1`, response the new `PLEN`, nothing else (R120, R122, R127). -/
def Obligations.PixOfNewColour : Prop :=
  ∀ (r g b : Byte) (s : State) (p : Nat → Colour),
    s.err = 0#3 → s.wptr.toNat < 256 → s.plen.toNat < 255 →
    (∀ j < s.plen.toNat, s.pal.read j = some (p j)) →
    (∀ j < s.plen.toNat, p j ≠ quant r g b) →
    exec (.pix r g b) s = .next { s with
      pal := s.pal.write s.plen.toNat (quant r g b),
      plen := s.plen + 1#8,
      idx := s.idx.write s.wptr.toNat (s.plen + 1#8),
      wptr := s.wptr + 1#9,
      responses := s.responses ++ [BitVec.ofNat 32 (s.plen.toNat + 1)] }

/-- `PIX` on a full buffer raises `SHAPE` and does nothing else, whatever the palette and the
colour (R126, R209). -/
def Obligations.PixOnFullBuffer : Prop :=
  ∀ (r g b : Byte) (s : State),
    s.err = 0#3 → s.wptr = 256#9 →
    exec (.pix r g b) s = .next { s with
      err := 3#3, responses := s.responses ++ [0x00010003#32] }

/-- Capacity (R125): a new colour at `PLEN == 255` raises `CAPACITY` and writes nothing; a colour
already in the full palette is still found and indexed; the 255th distinct colour is accepted and gets
index 255. -/
def Obligations.PixCapacity : Prop :=
  ∀ (r g b : Byte) (s : State) (p : Nat → Colour),
    s.err = 0#3 → s.wptr.toNat < 256 →
    (∀ j < s.plen.toNat, s.pal.read j = some (p j)) →
    (s.plen = 255#8 → (∀ j < 255, p j ≠ quant r g b) →
      exec (.pix r g b) s = .next { s with
        err := 1#3, responses := s.responses ++ [0x00010001#32] }) ∧
    (∀ k < 255, s.plen = 255#8 → p k = quant r g b → (∀ j < k, p j ≠ quant r g b) →
      exec (.pix r g b) s = .next { s with
        idx := s.idx.write s.wptr.toNat (BitVec.ofNat 8 (k + 1)),
        wptr := s.wptr + 1#9,
        responses := s.responses ++ [BitVec.ofNat 32 (k + 1)] }) ∧
    (s.plen = 254#8 → (∀ j < 254, p j ≠ quant r g b) →
      ∃ t : State, exec (.pix r g b) s = .next t ∧ t.err = 0#3 ∧ t.plen = 255#8 ∧
        t.pal.read 254 = some (quant r g b) ∧ t.idx.read s.wptr.toNat = some 255#8 ∧
        t.responses = s.responses ++ [255#32])

/-- The index written and returned is `palette_position + 1`, never 0: after an accepted pixel,
`IDX[WPTR]` is the response and names the entry of `PAL` that holds the pixel's colour; the first
pixel of an image appends `PAL[0]` and gets index 1 (R127, R51). -/
def Obligations.PixIndexNamesItsColour : Prop :=
  (∀ (r g b : Byte) (s t : State), exec (.pix r g b) s = .next t → t.wptr ≠ s.wptr →
    ∃ v : Byte, t.idx.read s.wptr.toNat = some v ∧ 1 ≤ v.toNat ∧ v.toNat ≤ t.plen.toNat ∧
      t.pal.read (v.toNat - 1) = some (quant r g b) ∧
      t.responses = s.responses ++ [v.setWidth 32]) ∧
  (∀ (r g b : Byte) (s : State), s.EmptyImage →
    ∃ t : State, exec (.pix r g b) s = .next t ∧ t.plen = 1#8 ∧ t.wptr = 1#9 ∧
      t.pal.read 0 = some (quant r g b) ∧ t.idx.read 0 = some 1#8 ∧
      t.responses = s.responses ++ [1#32])

/-- The frame of `PIX`: only `ERR`, `PLEN`, `WPTR`, the entry `PAL[PLEN]`, the entry `IDX[WPTR]` and
the response may change. -/
def Obligations.PixFrame : Prop :=
  ∀ (r g b : Byte) (s t : State), exec (.pix r g b) s = .next t →
    t.qout = s.qout ∧ t.pdone = s.pdone ∧ t.edone = s.edone ∧ t.scr = s.scr ∧
    t.sinkP = s.sinkP ∧ t.sinkS = s.sinkS ∧ t.inbox = s.inbox ∧ t.sinkAnswer = s.sinkAnswer ∧
    (∀ k, k ≠ s.plen.toNat → t.pal.read k = s.pal.read k) ∧
    (∀ a, a ≠ s.wptr.toNat → t.idx.read a = s.idx.read a) ∧
    (t.wptr = s.wptr → t.pal = s.pal ∧ t.idx = s.idx ∧ t.plen = s.plen) ∧
    (t.wptr ≠ s.wptr → t.wptr = s.wptr + 1#9 ∧ t.err = s.err) ∧
    (t.plen ≠ s.plen → t.plen = s.plen + 1#8)

/-- One `PIX` carries a state that holds a palette and its indices to the state that holds the
indexer's next round (R130's loop body, R64). -/
def Obligations.PixIsOneIndexerRound : Prop :=
  ∀ (r g b : Byte) (s : State) (pal : List Colour) (idx : List Byte),
    s.err = 0#3 → s.plen.toNat = pal.length → s.wptr.toNat = idx.length → idx.length < 256 →
    (∀ k : Nat, s.pal.read k = pal[k]?) → (∀ a : Nat, s.idx.read a = idx[a]?) →
    (indexerRound (pal, idx) (r, g, b)).1.length ≤ 255 →
    ∃ t : State, exec (.pix r g b) s = .next t ∧ t.err = 0#3 ∧
      t.plen.toNat = (indexerRound (pal, idx) (r, g, b)).1.length ∧
      t.wptr.toNat = (indexerRound (pal, idx) (r, g, b)).2.length ∧
      (∀ k : Nat, t.pal.read k = (indexerRound (pal, idx) (r, g, b)).1[k]?) ∧
      (∀ a : Nat, t.idx.read a = (indexerRound (pal, idx) (r, g, b)).2[a]?)

/-- The PaletteIndexer as a whole: from an empty image, `PIX p[0] .. PIX p[N-1]`, with `N <= 256` and
at most 255 distinct quantized colours, ends with the indexer's palette and indices and `ERR = 0`
(R130). -/
def Obligations.PixelsBuildPaletteAndIndices : Prop :=
  ∀ (ps : List Sample) (s : State), s.EmptyImage → ps.length ≤ 256 → (indexer ps).1.length ≤ 255 →
    ∃ t : State, feedPixels ps s = .next t ∧
      t.plen.toNat = (indexer ps).1.length ∧
      (∀ k : Nat, t.pal.read k = (indexer ps).1[k]?) ∧
      t.wptr.toNat = ps.length ∧
      (∀ a : Nat, t.idx.read a = (indexer ps).2[a]?) ∧
      t.err = 0#3

/-! ### Refusal, the error entry and the way out (60_exceptions.md) -/

/-- While an error is latched, `PIX`, `WRPAL` and `ENCODE` answer `REFUSED` with `val = ERR` and
nothing else changes (R207). -/
def Obligations.RefusedWhileErrorLatched : Prop :=
  ∀ (s : State), s.err ≠ 0#3 →
    ∀ i : Instr, ((∃ r g b, i = .pix r g b) ∨ i = .wrpal ∨ i = .encode) →
      exec i s = .next { s with
        responses := s.responses ++ [0#14 ++ 2#2 ++ s.err.setWidth 16] }

/-- The commands that are executed as usual while an error is latched: `CLR`, `QUANT`, `RDREG`,
`RDPAL` and `RDIDX` answer the same response and leave the same state, but for `ERR`, as they would
with no error latched, whatever `ERR` holds; `RDREG` of `STATUS` and `ERR` alone read the error
(R207, R184). -/
def Obligations.ReadsRunWhileErrorLatched : Prop :=
  ∀ (s : State) (i : Instr),
    (i = .clr ∨ (∃ r g b, i = .quant r g b) ∨ (∃ n, i = .rdreg n ∧ 2 ≤ n.toNat) ∨
      (∃ k, i = .rdpal k) ∨ (∃ a, i = .rdidx a)) →
    ∀ t : State, exec i s = .next t →
      ∃ u : State, exec i { s with err := 0#3 } = .next u ∧ { t with err := 0#3 } =
        { u with err := 0#3 }

/-- The error entry: the code is latched if none is, and the response is `ERROR` with the code of the
error just raised (R210, R206); the codes are those of R200. -/
def Obligations.ErrorEntry : Prop :=
  (∀ (k : ErrKind) (s : State),
    raise k s = .next { s with
      err := if s.err = 0#3 then k.code else s.err,
      responses := s.responses ++ [0#14 ++ 1#2 ++ k.code.setWidth 16] }) ∧
  ErrKind.capacity.code = 1#3 ∧ ErrKind.empty.code = 2#3 ∧ ErrKind.shape.code = 3#3 ∧
  ErrKind.sinkIo.code = 4#3 ∧ ErrKind.illegalCmd.code = 5#3

/-- Only `CLR` lowers `ERR`, and no byte reaches a sink while an error is latched (R206, R207, R211,
R215). -/
def Obligations.FirstErrorStaysUntilClr : Prop :=
  ∀ (i : Instr) (s t : State), s.err ≠ 0#3 → i ≠ .clr → exec i s = .next t →
    t.err = s.err ∧ t.sinkP = s.sinkP ∧ t.sinkS = s.sinkS ∧ t.pal = s.pal ∧ t.idx = s.idx ∧
    t.plen = s.plen ∧ t.wptr = s.wptr

/-- Errors are precise: a command that answers `ERROR` changes no register and no memory but `ERR`
(and the hidden scratch memory, inside `ENCODE`), and no sink unless the error is `SINK_IO`, code 4
(R208). -/
def Obligations.ErrorsArePrecise : Prop :=
  ∀ (i : Instr) (s t : State) (code : Colour), exec i s = .next t →
    t.responses = s.responses ++ [0#14 ++ 1#2 ++ code] →
    t.plen = s.plen ∧ t.wptr = s.wptr ∧ t.qout = s.qout ∧ t.pdone = s.pdone ∧ t.edone = s.edone ∧
    t.pal = s.pal ∧ t.idx = s.idx ∧ (i ≠ .encode → t.scr = s.scr) ∧
    (code ≠ 4#16 → t.scr = s.scr ∧ t.sinkP = s.sinkP ∧ t.sinkS = s.sinkS) ∧
    (s.err = 0#3 → t.err.setWidth 16 = code) ∧ (s.err ≠ 0#3 → t.err = s.err)

/-! ### WRPAL (43_palette_writer.md) -/

/-- With no error latched, `WRPAL` and `ENCODE` on an empty palette raise `EMPTY`, on an incomplete
image `SHAPE`, and put nothing (R172, R173, R176, R141). -/
def Obligations.OutputNeedsAWholeImage : Prop :=
  ∀ (s : State) (i : Instr), s.err = 0#3 → (i = .wrpal ∨ i = .encode) →
    (s.plen = 0#8 → exec i s = .next { s with
      err := 2#3, responses := s.responses ++ [0x00010002#32] }) ∧
    (s.plen ≠ 0#8 → s.wptr ≠ 256#9 → exec i s = .next { s with
      err := 3#3, responses := s.responses ++ [0x00010003#32] })

/-- `WRPAL` on a whole image whose palette is `p`, every byte accepted: sink `P` gains the alpha slot
and the colours, little-endian, in insertion order, `PDONE` is set, the response is `2 + 2 PLEN`, and
nothing else changes (R170, R171). -/
def Obligations.WrpalPutsThePaletteStream : Prop :=
  ∀ (s : State) (p : Nat → Colour),
    s.err = 0#3 → s.plen ≠ 0#8 → s.wptr = 256#9 →
    (∀ k < s.plen.toNat, s.pal.read k = some (p k)) →
    s.sinkAnswer.completes (2 + 2 * s.plen.toNat) = true →
    exec .wrpal s = .next { s with
      pdone := true,
      sinkP := s.sinkP ++ paletteBytes p s.plen.toNat,
      responses := s.responses ++ [BitVec.ofNat 32 (2 + 2 * s.plen.toNat)] }

/-- If the sink fails byte `j`, `WRPAL` raises `SINK_IO`, offers no further byte and does not set
`PDONE`; bytes `0..j-1` stay (R175). -/
def Obligations.WrpalSinkFailure : Prop :=
  ∀ (s : State) (p : Nat → Colour) (j : Nat),
    s.err = 0#3 → s.plen ≠ 0#8 → s.wptr = 256#9 →
    (∀ k < s.plen.toNat, s.pal.read k = some (p k)) →
    s.sinkAnswer = .failAt j → j < 2 + 2 * s.plen.toNat →
    exec .wrpal s = .next { s with
      err := 4#3,
      sinkP := s.sinkP ++ (paletteBytes p s.plen.toNat).take j,
      responses := s.responses ++ [0x00010004#32] }

/-- `WRPAL` under a sink that never answers byte `j` ends in the model's fault `sinkSilent` (log entry 8,
deduced from R257: the command is never finished). A reset after `j` accepted bytes, `j` up to the
stream's length, leaves them in the sink, gives no response, and the core in the reset state (log entry
10, deduced from R240), in which the model gives no cell of `SCR` a value (log entry 6). -/
def Obligations.WrpalStuckOrAbandoned : Prop :=
  ∀ (s : State) (p : Nat → Colour) (j : Nat),
    s.err = 0#3 → s.plen ≠ 0#8 → s.wptr = 256#9 →
    (∀ k < s.plen.toNat, s.pal.read k = some (p k)) →
    (s.sinkAnswer = .silentAt j → j < 2 + 2 * s.plen.toNat →
      exec .wrpal s = .fault (.sinkSilent .P)) ∧
    (s.sinkAnswer = .resetAt j → j ≤ 2 + 2 * s.plen.toNat →
      exec .wrpal s = .next { State.reset with
        sinkP := s.sinkP ++ (paletteBytes p s.plen.toNat).take j, sinkS := s.sinkS,
        responses := s.responses, inbox := s.inbox, sinkAnswer := s.sinkAnswer })

/-! ### ENCODE (42_bitplane_encoder.md) -/

/-- `ENCODE` on a whole image whose index buffer is `f`, every byte accepted: sink `S` gains the 128
bytes of R150's closed form, `EDONE` is set, the response is 128, and nothing else changes but the
hidden scratch memory, whatever it held before (R150, R151, R140, R153). -/
def Obligations.EncodePutsTheClosedForm : Prop :=
  ∀ (s : State) (f : Nat → Byte),
    s.err = 0#3 → s.plen ≠ 0#8 → s.wptr = 256#9 →
    (∀ a < 256, s.idx.read a = some (f a)) →
    s.sinkAnswer.completes 128 = true →
    ∃ scr : Memory 8, exec .encode s = .next { s with
      scr := scr,
      edone := true,
      sinkS := s.sinkS ++ spriteBytes f,
      responses := s.responses ++ [128#32] }

/-- If the sink fails byte `j` of the stream, `ENCODE` raises `SINK_IO`, offers no further byte, does
not set `EDONE`, and bytes `0..j-1` stay in the sink (R152). -/
def Obligations.EncodeSinkFailure : Prop :=
  ∀ (s : State) (f : Nat → Byte) (j : Nat),
    s.err = 0#3 → s.plen ≠ 0#8 → s.wptr = 256#9 →
    (∀ a < 256, s.idx.read a = some (f a)) →
    s.sinkAnswer = .failAt j → j < 128 →
    ∃ scr : Memory 8, exec .encode s = .next { s with
      scr := scr,
      err := 4#3,
      sinkS := s.sinkS ++ (spriteBytes f).take j,
      responses := s.responses ++ [0x00010004#32] }

/-- `ENCODE` under a sink that never answers byte `j` ends in the model's fault `sinkSilent` (log entry 8,
deduced from R257: the command is never finished). A reset after `j` accepted bytes, `j` up to 128,
leaves them in the sink, gives no response, and the core in the reset state (log entry 10, deduced from
R240), in which the model gives no cell of `SCR` a value (log entry 6). -/
def Obligations.EncodeStuckOrAbandoned : Prop :=
  ∀ (s : State) (f : Nat → Byte) (j : Nat),
    s.err = 0#3 → s.plen ≠ 0#8 → s.wptr = 256#9 →
    (∀ a < 256, s.idx.read a = some (f a)) →
    (s.sinkAnswer = .silentAt j → j < 128 → exec .encode s = .fault (.sinkSilent .S)) ∧
    (s.sinkAnswer = .resetAt j → j ≤ 128 →
      exec .encode s = .next { State.reset with
        sinkP := s.sinkP, sinkS := s.sinkS ++ (spriteBytes f).take j,
        responses := s.responses, inbox := s.inbox, sinkAnswer := s.sinkAnswer })

/-- Round trip of packing: from the bytes an `ENCODE` put, read MSB first, the four low bits of every
index come back (R151). -/
def Obligations.SpriteStreamUnpacks : Prop :=
  ∀ (s t : State) (f : Nat → Byte),
    s.err = 0#3 → (∀ a < 256, s.idx.read a = some (f a)) →
    exec .encode s = .next t → t.responses = s.responses ++ [128#32] →
    ∀ a < 256, ∀ bp < 4,
      ((t.sinkS.drop s.sinkS.length).getD
        (32 * (2 * (a / 128) + a % 16 / 8) + 16 * (bp / 2) + 2 * (a / 16 % 8) + bp % 2) 0#8).getLsbD
          (7 - a % 8) = (f a).getLsbD bp

/-- Only bits 0..3 of an index reach the stream: index buffers that agree in them put the same
bytes, and both encode without any error (R154). -/
def Obligations.IndicesAbove15AreTruncated : Prop :=
  ∀ (s : State) (m : Memory 8) (f g : Nat → Byte),
    s.err = 0#3 → s.plen ≠ 0#8 → s.wptr = 256#9 → s.sinkAnswer.completes 128 = true →
    (∀ a < 256, s.idx.read a = some (f a)) → (∀ a < 256, m.read a = some (g a)) →
    (∀ a < 256, f a &&& 0x0F#8 = g a &&& 0x0F#8) →
    ∃ t u : State, exec .encode s = .next t ∧ exec .encode { s with idx := m } = .next u ∧
      t.sinkS = u.sinkS ∧ t.responses = s.responses ++ [128#32] ∧ t.err = 0#3 ∧ u.err = 0#3

/-- Uniform image: when every index is 1 the stream is, four times over, `FF 00` eight times and then
`00 00` eight times (R157). -/
def Obligations.UniformImageStream : Prop :=
  ∀ s : State,
    s.err = 0#3 → s.plen ≠ 0#8 → s.wptr = 256#9 → (∀ a < 256, s.idx.read a = some 1#8) →
    s.sinkAnswer.completes 128 = true →
    ∃ t : State, exec .encode s = .next t ∧
      t.sinkS = s.sinkS ++ (List.replicate 4
        ((List.replicate 8 [0xFF#8, 0x00#8]).flatten ++
          (List.replicate 8 [0x00#8, 0x00#8]).flatten)).flatten

/-- Repetition: `ENCODE` changes none of `IDX`, `PAL`, `PLEN`, `WPTR`, and a second `ENCODE` puts the
same 128 bytes to sink `S` again, after the first 128 (R156). -/
def Obligations.EncodeRepeats : Prop :=
  ∀ (s t : State), exec .encode s = .next t → t.err = 0#3 → t.plen ≠ 0#8 →
    t.idx = s.idx ∧ t.pal = s.pal ∧ t.plen = s.plen ∧ t.wptr = s.wptr ∧
    ∃ (u : State) (bs : List Byte), exec .encode t = .next u ∧ bs.length = 128 ∧
      t.sinkS = s.sinkS ++ bs ∧ u.sinkS = s.sinkS ++ bs ++ bs

/-- Repetition: `WRPAL` changes nothing it reads, so a second `WRPAL` appends the same bytes again
(R176). -/
def Obligations.WrpalRepeats : Prop :=
  ∀ (s t : State), exec .wrpal s = .next t → t.err = 0#3 → t.plen ≠ 0#8 →
    t.pal = s.pal ∧ t.plen = s.plen ∧ t.wptr = s.wptr ∧ s.err = 0#3 ∧
    ∃ (u : State) (bs : List Byte), exec .wrpal t = .next u ∧
      t.sinkP = s.sinkP ++ bs ∧ u.sinkP = s.sinkP ++ bs ++ bs

/-! ### CLR and the reads (44_system_readout.md, 10_state.md) -/

/-- `CLR`, the word `0x10000000`, in every state gives the reset state of R41, the host's side untouched but for the response
0; then no entry of `PAL` or `IDX` is written and all `STATUS` bits read 0 (R180, R41). That no cell of
`SCR` has a value either is the model's choice (log entry 6): R41 leaves it unspecified. -/
def Obligations.ClrRestoresTheResetState : Prop :=
  decode 0x10000000#32 = .ok .clr ∧
  ∀ s : State,
    exec .clr s = .next { s with
      err := 0#3, plen := 0#8, wptr := 0#9, qout := 0#16, pdone := false, edone := false,
      pal := [], idx := [], scr := [], responses := s.responses ++ [0#32] } ∧
    (∀ k : Nat, (State.coreReset s).pal.read k = none ∧ (State.coreReset s).idx.read k = none) ∧
    (State.coreReset s).status = 0#16

/-- `STATUS` bit by bit: `ERRF`, `FULL`, `PDONE`, `EDONE`, and 0 in bits 15:4 (R28). -/
def Obligations.StatusBits : Prop :=
  ∀ s : State,
    s.status.getLsbD 0 = decide (s.err ≠ 0#3) ∧ s.status.getLsbD 1 = decide (s.wptr = 256#9) ∧
    s.status.getLsbD 2 = s.pdone ∧ s.status.getLsbD 3 = s.edone ∧
    s.status.extractLsb' 4 12 = 0#12

/-- `RDREG n`, the word `0x60000000 | n`, in every state: the register named, zero-extended, and nothing changes; a number that
names no register raises `ILLEGAL_CMD` (R181, R29). -/
def Obligations.RdregReturnsTheRegister : Prop :=
  ∀ (s : State) (n : Byte),
    decode (0x60000000#32 ||| n.setWidth 32) = .ok (.rdreg n) ∧
    (n = 0#8 → exec (.rdreg n) s = .next
      { s with responses := s.responses ++ [0#16 ++ s.status] }) ∧
    (n = 1#8 → exec (.rdreg n) s = .next
      { s with responses := s.responses ++ [s.err.setWidth 32] }) ∧
    (n = 2#8 → exec (.rdreg n) s = .next
      { s with responses := s.responses ++ [s.plen.setWidth 32] }) ∧
    (n = 3#8 → exec (.rdreg n) s = .next
      { s with responses := s.responses ++ [s.wptr.setWidth 32] }) ∧
    (n = 4#8 → exec (.rdreg n) s = .next
      { s with responses := s.responses ++ [s.qout.setWidth 32] }) ∧
    (4 < n.toNat → exec (.rdreg n) s = .next
      { s with
        err := if s.err = 0#3 then 5#3 else s.err,
        responses := s.responses ++ [0x00010005#32] })

/-- `RDPAL k`, the word `0x70000000 | k`: the entry, and nothing changes; an unwritten position raises `ILLEGAL_CMD` (R182, R62). -/
def Obligations.RdpalReturnsTheColour : Prop :=
  ∀ (s : State) (k : Byte),
    decode (0x70000000#32 ||| k.setWidth 32) = .ok (.rdpal k) ∧
    (∀ v : Colour, k.toNat < s.plen.toNat → s.pal.read k.toNat = some v →
      exec (.rdpal k) s = .next { s with responses := s.responses ++ [0#16 ++ v] }) ∧
    (s.plen.toNat ≤ k.toNat →
      exec (.rdpal k) s = .next { s with
        err := if s.err = 0#3 then 5#3 else s.err,
        responses := s.responses ++ [0x00010005#32] })

/-- `RDIDX a`, the word `0x80000000 | a`: the entry zero-extended, and nothing changes; an unwritten entry raises `ILLEGAL_CMD`
(R183, R62). -/
def Obligations.RdidxReturnsTheIndex : Prop :=
  ∀ (s : State) (a : Byte),
    decode (0x80000000#32 ||| a.setWidth 32) = .ok (.rdidx a) ∧
    (∀ v : Byte, a.toNat < s.wptr.toNat → s.idx.read a.toNat = some v →
      exec (.rdidx a) s = .next { s with responses := s.responses ++ [v.setWidth 32] }) ∧
    (s.wptr.toNat ≤ a.toNat →
      exec (.rdidx a) s = .next { s with
        err := if s.err = 0#3 then 5#3 else s.err,
        responses := s.responses ++ [0x00010005#32] })

/-- Reading an entry the palette or the index buffer claims and does not hold stops the model by name:
the model's own stop, log entry 5. -/
def Obligations.ReadOfAnUnwrittenEntryStops : Prop :=
  ∀ (s : State) (k : Byte),
    (k.toNat < s.plen.toNat → s.pal.read k.toNat = none →
      exec (.rdpal k) s = .fault (.unwrittenEntry .pal k.toNat)) ∧
    (k.toNat < s.wptr.toNat → s.idx.read k.toNat = none →
      exec (.rdidx k) s = .fault (.unwrittenEntry .idx k.toNat))

/-! ### The whole machine -/

/-- Frames of every command but `PIX` and `CLR`, unless a reset abandons it (log entry 10): no entry
of `PAL` or `IDX`, neither `PLEN` nor `WPTR` changes (R30, R31, R23, R24). -/
def Obligations.OnlyPixWritesTheImage : Prop :=
  ∀ (i : Instr) (s t : State), exec i s = .next t → (∀ r g b, i ≠ .pix r g b) → i ≠ .clr →
    (∀ j, s.sinkAnswer ≠ .resetAt j) →
    t.plen = s.plen ∧ t.wptr = s.wptr ∧
    (∀ k : Nat, t.pal.read k = s.pal.read k) ∧ (∀ a : Nat, t.idx.read a = s.idx.read a)

/-- Who writes what (10_state.md section 2, R22, R26, R27, R32): `QOUT` only `QUANT`, `PDONE` only
`WRPAL`, `EDONE` and `SCR` only `ENCODE`, sink `P` only `WRPAL`, sink `S` only `ENCODE`, `CLR` and an
abandoning reset (log entry 10) apart; no command takes an action of the host's (log entry 3). -/
def Obligations.EachRegisterHasItsWriters : Prop :=
  ∀ (i : Instr) (s t : State), exec i s = .next t →
    (i ≠ .wrpal → t.sinkP = s.sinkP) ∧ (i ≠ .encode → t.sinkS = s.sinkS) ∧
    t.inbox = s.inbox ∧ t.sinkAnswer = s.sinkAnswer ∧
    (i ≠ .clr → (∀ j, s.sinkAnswer ≠ .resetAt j) →
      ((∀ r g b, i ≠ .quant r g b) → t.qout = s.qout) ∧
      (i ≠ .wrpal → t.pdone = s.pdone) ∧ (i ≠ .encode → t.edone = s.edone ∧ t.scr = s.scr) ∧
      (s.pdone = true → t.pdone = true) ∧ (s.edone = true → t.edone = true))

/-- The sinks are append-only in every step, reset included (R34, R55, R241). So is the list of
responses, `CLR` and reset included: that list and its never shrinking are the model's choice (log
entry 4). -/
def Obligations.SinksOnlyGrow : Prop :=
  ∀ s t : State, step s = .next t →
    s.sinkP <+: t.sinkP ∧ s.sinkS <+: t.sinkS ∧ s.responses <+: t.responses

/-- The scratch memory has no influence: two states that differ only in it step to outcomes that
differ at most in it (R158, R254). -/
def Obligations.ScratchIsUnobservable : Prop :=
  ∀ (s : State) (m : Memory 8), sameButScratch (step s) (step { s with scr := m })

/-- Every step keeps the memories within their sizes (R50) and in canonical form, which is the model's
own (log entry 5), from every state. -/
def Obligations.StepKeepsMemoryForm : Prop :=
  ∀ s t : State, s.MemoryForm → step s = .next t → t.MemoryForm

/-- The state after reset meets the invariants (R41). -/
def Obligations.ResetMeetsTheInvariants : Prop := State.reset.Inv

/-- Every step keeps the invariants of 10_state.md section 4: palette uniqueness, first-seen order,
index validity, the counts, the high bit, completion over a whole image (R35 to R40, R25). -/
def Obligations.StepKeepsTheInvariants : Prop :=
  ∀ s t : State, s.Inv → step s = .next t → t.Inv

/-- In a state with the invariants, every step the host is not assumed never to cause, with a sink
that answers, gives a next state: "every command word, in every reachable state, with every sink
answer, has exactly one outcome", and the block goes on (R257, R214). -/
def Obligations.AdmittedStepsComplete : Prop :=
  ∀ s : State, s.Inv → s.Admitted = true → ∃ t : State, step s = .next t

/-- A whole image: from an empty image, 256 samples of at most 255 distinct quantized colours, then
`WRPAL` and `ENCODE`, the sinks accepting, all succeed; then `ERR` is 0, both flags are set, sink `P`
has gained the alpha slot and the colours, and sink `S` the 128 bytes of R150 (R255, R243). -/
def Obligations.WholeImageSucceeds : Prop :=
  ∀ (ps : List Sample) (s : State), s.EmptyImage → ps.length = 256 →
    (indexer ps).1.length ≤ 255 → s.sinkAnswer = .acceptAll →
    ∃ t u v : State, feedPixels ps s = .next t ∧ exec .wrpal t = .next u ∧
      exec .encode u = .next v ∧
      v.err = 0#3 ∧ v.pdone = true ∧ v.edone = true ∧
      v.sinkP = s.sinkP ++ [0xFF#8, 0xFF#8] ++
        (indexer ps).1.flatMap (fun c => [c.extractLsb' 0 8, c.extractLsb' 8 8]) ∧
      v.sinkS = s.sinkS ++ spriteBytes (fun a => (indexer ps).2.getD a 0#8)
end

