-- ==== Sys2Proof/Laws/Memory.lean ====
section
/-!
SUPPORT. The laws of a memory: read after write, and that a write keeps the canonical form; what
reading a run of entries answers.
-/

namespace Sys2Proof.Machine

theorem Memory.read_write {w : Nat} (m : Memory w) (a b : Nat) (v : BitVec w) :
    (m.write a v).read b = if b = a then some v else m.read b := by
  induction m with
  | nil => simp [Memory.write, Memory.read]
  | cons c m ih =>
    obtain ⟨k, u⟩ := c
    by_cases h1 : a < k
    · simp [Memory.write, Memory.read, h1]
    · by_cases h2 : a = k
      · subst h2
        by_cases h3 : b = a <;> simp [Memory.write, Memory.read, h3]
      · by_cases h3 : b = k
        · subst h3
          simp [Memory.write, Memory.read, h1, h2, Ne.symm h2]
        · simp [Memory.write, Memory.read, h1, h2, h3, ih]

@[simp] theorem Memory.read_write_same {w : Nat} (m : Memory w) (a : Nat) (v : BitVec w) :
    (m.write a v).read a = some v := by simp [Memory.read_write]

theorem Memory.read_write_other {w : Nat} (m : Memory w) {a b : Nat} (v : BitVec w) (h : b ≠ a) :
    (m.write a v).read b = m.read b := by simp [Memory.read_write, h]

/-- The addresses listed after a write are the one written and those listed before. -/
theorem Memory.mem_write {w : Nat} {m : Memory w} {a : Nat} {v : BitVec w} {c : Nat × BitVec w}
    (h : c ∈ m.write a v) : c = (a, v) ∨ c ∈ m := by
  induction m with
  | nil => simpa [Memory.write] using h
  | cons d m ih =>
    obtain ⟨k, u⟩ := d
    simp only [Memory.write] at h
    split at h
    · simpa using h
    · split at h
      · rcases List.mem_cons.mp h with h | h <;> simp [h]
      · rcases List.mem_cons.mp h with h | h
        · simp [h]
        · rcases ih h with h | h <;> simp [h]

/-- A write within the memory keeps the canonical form. -/
theorem Memory.wf_write {w size : Nat} {m : Memory w} {a : Nat} (v : BitVec w)
    (hm : m.wf size) (ha : a < size) : (m.write a v).wf size := by
  refine ⟨?_, fun c hc => ?_⟩
  · have hp := hm.1
    clear hm
    induction m with
    | nil => simp [Memory.write]
    | cons d m ih =>
      obtain ⟨k, u⟩ := d
      obtain ⟨hk, hp⟩ := List.pairwise_cons.mp hp
      simp only [Memory.write]
      split
      · rename_i h
        refine List.pairwise_cons.mpr ⟨fun c hc => ?_, List.pairwise_cons.mpr ⟨hk, hp⟩⟩
        rcases List.mem_cons.mp hc with rfl | hc
        · exact h
        · exact Nat.lt_trans h (hk c hc)
      · split
        · rename_i h
          exact List.pairwise_cons.mpr ⟨fun c hc => h ▸ hk c hc, hp⟩
        · refine List.pairwise_cons.mpr ⟨fun c hc => ?_, ih hp⟩
          rcases Memory.mem_write hc with rfl | hc
          · show k < a
            omega
          · exact hk c hc
  · rcases Memory.mem_write hc with rfl | hc
    · exact ha
    · exact hm.2 c hc

/-- A memory written out as a table of its first `n` entries. -/
theorem Memory.read_table {w : Nat} (f : Nat → BitVec w) {n a : Nat} (h : a < n) :
    Memory.read ((List.range n).map fun k => (k, f k)) a = some (f a) := by
  have gen : ∀ (k b : Nat), b ≤ a → a < b + k →
      Memory.read ((List.range' b k).map fun k => (k, f k)) a = some (f a) := by
    intro k
    induction k with
    | zero => intro b h1 h2; omega
    | succ k ih =>
      intro b h1 h2
      simp only [List.range'_succ, List.map_cons, Memory.read]
      split <;> rename_i hab
      · rw [hab]
      · exact ih (b + 1) (by omega) (by omega)
  rw [List.range_eq_range']
  exact gen n 0 (by omega) (by omega)

theorem Memory.wf_nil {w : Nat} (size : Nat) : Memory.wf size ([] : Memory w) := by
  simp [Memory.wf]

/-! ### Reading entries -/

theorem readEntry_ok_iff {w : Nat} (sp : Space) (m : Memory w) (a : Nat) (v : BitVec w) :
    readEntry sp m a = .ok v ↔ m.read a = some v := by
  unfold readEntry
  split <;> rename_i h <;> simp [h]

/-- Everything `writeEntry` can do when it answers. -/
theorem writeEntry_ok_iff {w : Nat} (sp : Space) (m m' : Memory w) (a : Nat) (v : BitVec w) :
    writeEntry sp m a v = .ok m' ↔ a < sp.entries ∧ m' = m.write a v := by
  unfold writeEntry
  split <;> rename_i h <;> simp [h, eq_comm]

/-- Everything `readUpto` can answer: the list of the entries' values, each written. -/
theorem readUpto_ok {w : Nat} {sp : Space} {m : Memory w} {n : Nat} {vs : List (BitVec w)}
    (h : readUpto sp m n = .ok vs) :
    vs.length = n ∧ ∀ (a : Nat) (ha : a < vs.length), m.read a = some vs[a] := by
  induction n generalizing vs with
  | zero =>
    have : vs = [] := by simpa [readUpto, eq_comm] using h
    subst this
    simp
  | succ n ih =>
    simp only [readUpto] at h
    split at h
    · simp at h
    · rename_i us hus
      split at h
      · simp at h
      · rename_i v hv
        obtain rfl : us ++ [v] = vs := by simpa using h
        obtain ⟨hl, hr⟩ := ih hus
        refine ⟨by simp [hl], fun a ha => ?_⟩
        by_cases hau : a < us.length
        · simp [List.getElem_append_left hau, hr a hau]
        · have : a = us.length := by simp at ha; omega
          subst this
          simpa [hl] using (readEntry_ok_iff ..).mp hv

/-- Where the entries below `n` are `f`, `readUpto` answers them. -/
theorem readUpto_of_read {w : Nat} {sp : Space} {m : Memory w} {n : Nat} {f : Nat → BitVec w}
    (h : ∀ a < n, m.read a = some (f a)) : readUpto sp m n = .ok ((List.range n).map f) := by
  induction n with
  | zero => rfl
  | succ n ih =>
    have hv : readEntry sp m n = .ok (f n) := (readEntry_ok_iff ..).mpr (h n (by omega))
    simp [readUpto, ih fun a ha => h a (by omega), hv, List.range_succ]

end Sys2Proof.Machine
end

