-- ==== Sys2Proof/Laws/State.lean ====
section
/-!
SUPPORT. One lemma per field per update of State, so that no proof unfolds a record update.
-/

namespace Sys2Proof.Machine

/-! ### `State.answer` -/

@[simp] theorem State.answer_err (s : State) (st : Status) (val : Colour) : (s.answer st val).err = s.err := rfl
@[simp] theorem State.answer_plen (s : State) (st : Status) (val : Colour) : (s.answer st val).plen = s.plen := rfl
@[simp] theorem State.answer_wptr (s : State) (st : Status) (val : Colour) : (s.answer st val).wptr = s.wptr := rfl
@[simp] theorem State.answer_qout (s : State) (st : Status) (val : Colour) : (s.answer st val).qout = s.qout := rfl
@[simp] theorem State.answer_pdone (s : State) (st : Status) (val : Colour) : (s.answer st val).pdone = s.pdone := rfl
@[simp] theorem State.answer_edone (s : State) (st : Status) (val : Colour) : (s.answer st val).edone = s.edone := rfl
@[simp] theorem State.answer_pal (s : State) (st : Status) (val : Colour) : (s.answer st val).pal = s.pal := rfl
@[simp] theorem State.answer_idx (s : State) (st : Status) (val : Colour) : (s.answer st val).idx = s.idx := rfl
@[simp] theorem State.answer_scr (s : State) (st : Status) (val : Colour) : (s.answer st val).scr = s.scr := rfl
@[simp] theorem State.answer_sinkP (s : State) (st : Status) (val : Colour) : (s.answer st val).sinkP = s.sinkP := rfl
@[simp] theorem State.answer_sinkS (s : State) (st : Status) (val : Colour) : (s.answer st val).sinkS = s.sinkS := rfl
@[simp] theorem State.answer_responses (s : State) (st : Status) (val : Colour) : (s.answer st val).responses = s.responses ++ [responseWord st val] := rfl
@[simp] theorem State.answer_inbox (s : State) (st : Status) (val : Colour) : (s.answer st val).inbox = s.inbox := rfl
@[simp] theorem State.answer_sinkAnswer (s : State) (st : Status) (val : Colour) : (s.answer st val).sinkAnswer = s.sinkAnswer := rfl

/-! ### `State.latch` -/

@[simp] theorem State.latch_err (s : State) (k : ErrKind) : (s.latch k).err = if s.err = 0#3 then k.code else s.err := rfl
@[simp] theorem State.latch_plen (s : State) (k : ErrKind) : (s.latch k).plen = s.plen := rfl
@[simp] theorem State.latch_wptr (s : State) (k : ErrKind) : (s.latch k).wptr = s.wptr := rfl
@[simp] theorem State.latch_qout (s : State) (k : ErrKind) : (s.latch k).qout = s.qout := rfl
@[simp] theorem State.latch_pdone (s : State) (k : ErrKind) : (s.latch k).pdone = s.pdone := rfl
@[simp] theorem State.latch_edone (s : State) (k : ErrKind) : (s.latch k).edone = s.edone := rfl
@[simp] theorem State.latch_pal (s : State) (k : ErrKind) : (s.latch k).pal = s.pal := rfl
@[simp] theorem State.latch_idx (s : State) (k : ErrKind) : (s.latch k).idx = s.idx := rfl
@[simp] theorem State.latch_scr (s : State) (k : ErrKind) : (s.latch k).scr = s.scr := rfl
@[simp] theorem State.latch_sinkP (s : State) (k : ErrKind) : (s.latch k).sinkP = s.sinkP := rfl
@[simp] theorem State.latch_sinkS (s : State) (k : ErrKind) : (s.latch k).sinkS = s.sinkS := rfl
@[simp] theorem State.latch_responses (s : State) (k : ErrKind) : (s.latch k).responses = s.responses := rfl
@[simp] theorem State.latch_inbox (s : State) (k : ErrKind) : (s.latch k).inbox = s.inbox := rfl
@[simp] theorem State.latch_sinkAnswer (s : State) (k : ErrKind) : (s.latch k).sinkAnswer = s.sinkAnswer := rfl

/-! ### `State.coreReset` -/

@[simp] theorem State.coreReset_err (s : State) : (s.coreReset).err = 0#3 := rfl
@[simp] theorem State.coreReset_plen (s : State) : (s.coreReset).plen = 0#8 := rfl
@[simp] theorem State.coreReset_wptr (s : State) : (s.coreReset).wptr = 0#9 := rfl
@[simp] theorem State.coreReset_qout (s : State) : (s.coreReset).qout = 0#16 := rfl
@[simp] theorem State.coreReset_pdone (s : State) : (s.coreReset).pdone = false := rfl
@[simp] theorem State.coreReset_edone (s : State) : (s.coreReset).edone = false := rfl
@[simp] theorem State.coreReset_pal (s : State) : (s.coreReset).pal = [] := rfl
@[simp] theorem State.coreReset_idx (s : State) : (s.coreReset).idx = [] := rfl
@[simp] theorem State.coreReset_scr (s : State) : (s.coreReset).scr = [] := rfl
@[simp] theorem State.coreReset_sinkP (s : State) : (s.coreReset).sinkP = s.sinkP := rfl
@[simp] theorem State.coreReset_sinkS (s : State) : (s.coreReset).sinkS = s.sinkS := rfl
@[simp] theorem State.coreReset_responses (s : State) : (s.coreReset).responses = s.responses := rfl
@[simp] theorem State.coreReset_inbox (s : State) : (s.coreReset).inbox = s.inbox := rfl
@[simp] theorem State.coreReset_sinkAnswer (s : State) : (s.coreReset).sinkAnswer = s.sinkAnswer := rfl

/-! ### `State.appendColour` -/

@[simp] theorem State.appendColour_err (s : State) (c : Colour) : (s.appendColour c).err = s.err := rfl
@[simp] theorem State.appendColour_plen (s : State) (c : Colour) : (s.appendColour c).plen = s.plen + 1#8 := rfl
@[simp] theorem State.appendColour_wptr (s : State) (c : Colour) : (s.appendColour c).wptr = s.wptr := rfl
@[simp] theorem State.appendColour_qout (s : State) (c : Colour) : (s.appendColour c).qout = s.qout := rfl
@[simp] theorem State.appendColour_pdone (s : State) (c : Colour) : (s.appendColour c).pdone = s.pdone := rfl
@[simp] theorem State.appendColour_edone (s : State) (c : Colour) : (s.appendColour c).edone = s.edone := rfl
@[simp] theorem State.appendColour_pal (s : State) (c : Colour) : (s.appendColour c).pal = s.pal.write s.plen.toNat c := rfl
@[simp] theorem State.appendColour_idx (s : State) (c : Colour) : (s.appendColour c).idx = s.idx := rfl
@[simp] theorem State.appendColour_scr (s : State) (c : Colour) : (s.appendColour c).scr = s.scr := rfl
@[simp] theorem State.appendColour_sinkP (s : State) (c : Colour) : (s.appendColour c).sinkP = s.sinkP := rfl
@[simp] theorem State.appendColour_sinkS (s : State) (c : Colour) : (s.appendColour c).sinkS = s.sinkS := rfl
@[simp] theorem State.appendColour_responses (s : State) (c : Colour) : (s.appendColour c).responses = s.responses := rfl
@[simp] theorem State.appendColour_inbox (s : State) (c : Colour) : (s.appendColour c).inbox = s.inbox := rfl
@[simp] theorem State.appendColour_sinkAnswer (s : State) (c : Colour) : (s.appendColour c).sinkAnswer = s.sinkAnswer := rfl

/-! ### `State.setPdone` -/

@[simp] theorem State.setPdone_err (s : State) : (s.setPdone).err = s.err := rfl
@[simp] theorem State.setPdone_plen (s : State) : (s.setPdone).plen = s.plen := rfl
@[simp] theorem State.setPdone_wptr (s : State) : (s.setPdone).wptr = s.wptr := rfl
@[simp] theorem State.setPdone_qout (s : State) : (s.setPdone).qout = s.qout := rfl
@[simp] theorem State.setPdone_pdone (s : State) : (s.setPdone).pdone = true := rfl
@[simp] theorem State.setPdone_edone (s : State) : (s.setPdone).edone = s.edone := rfl
@[simp] theorem State.setPdone_pal (s : State) : (s.setPdone).pal = s.pal := rfl
@[simp] theorem State.setPdone_idx (s : State) : (s.setPdone).idx = s.idx := rfl
@[simp] theorem State.setPdone_scr (s : State) : (s.setPdone).scr = s.scr := rfl
@[simp] theorem State.setPdone_sinkP (s : State) : (s.setPdone).sinkP = s.sinkP := rfl
@[simp] theorem State.setPdone_sinkS (s : State) : (s.setPdone).sinkS = s.sinkS := rfl
@[simp] theorem State.setPdone_responses (s : State) : (s.setPdone).responses = s.responses := rfl
@[simp] theorem State.setPdone_inbox (s : State) : (s.setPdone).inbox = s.inbox := rfl
@[simp] theorem State.setPdone_sinkAnswer (s : State) : (s.setPdone).sinkAnswer = s.sinkAnswer := rfl

/-! ### `State.setEdone` -/

@[simp] theorem State.setEdone_err (s : State) : (s.setEdone).err = s.err := rfl
@[simp] theorem State.setEdone_plen (s : State) : (s.setEdone).plen = s.plen := rfl
@[simp] theorem State.setEdone_wptr (s : State) : (s.setEdone).wptr = s.wptr := rfl
@[simp] theorem State.setEdone_qout (s : State) : (s.setEdone).qout = s.qout := rfl
@[simp] theorem State.setEdone_pdone (s : State) : (s.setEdone).pdone = s.pdone := rfl
@[simp] theorem State.setEdone_edone (s : State) : (s.setEdone).edone = true := rfl
@[simp] theorem State.setEdone_pal (s : State) : (s.setEdone).pal = s.pal := rfl
@[simp] theorem State.setEdone_idx (s : State) : (s.setEdone).idx = s.idx := rfl
@[simp] theorem State.setEdone_scr (s : State) : (s.setEdone).scr = s.scr := rfl
@[simp] theorem State.setEdone_sinkP (s : State) : (s.setEdone).sinkP = s.sinkP := rfl
@[simp] theorem State.setEdone_sinkS (s : State) : (s.setEdone).sinkS = s.sinkS := rfl
@[simp] theorem State.setEdone_responses (s : State) : (s.setEdone).responses = s.responses := rfl
@[simp] theorem State.setEdone_inbox (s : State) : (s.setEdone).inbox = s.inbox := rfl
@[simp] theorem State.setEdone_sinkAnswer (s : State) : (s.setEdone).sinkAnswer = s.sinkAnswer := rfl

/-! ### `State.issue` -/

@[simp] theorem State.issue_err (s : State) (w : Word) : (s.issue w).err = s.err := rfl
@[simp] theorem State.issue_plen (s : State) (w : Word) : (s.issue w).plen = s.plen := rfl
@[simp] theorem State.issue_wptr (s : State) (w : Word) : (s.issue w).wptr = s.wptr := rfl
@[simp] theorem State.issue_qout (s : State) (w : Word) : (s.issue w).qout = s.qout := rfl
@[simp] theorem State.issue_pdone (s : State) (w : Word) : (s.issue w).pdone = s.pdone := rfl
@[simp] theorem State.issue_edone (s : State) (w : Word) : (s.issue w).edone = s.edone := rfl
@[simp] theorem State.issue_pal (s : State) (w : Word) : (s.issue w).pal = s.pal := rfl
@[simp] theorem State.issue_idx (s : State) (w : Word) : (s.issue w).idx = s.idx := rfl
@[simp] theorem State.issue_scr (s : State) (w : Word) : (s.issue w).scr = s.scr := rfl
@[simp] theorem State.issue_sinkP (s : State) (w : Word) : (s.issue w).sinkP = s.sinkP := rfl
@[simp] theorem State.issue_sinkS (s : State) (w : Word) : (s.issue w).sinkS = s.sinkS := rfl
@[simp] theorem State.issue_responses (s : State) (w : Word) : (s.issue w).responses = s.responses := rfl
@[simp] theorem State.issue_inbox (s : State) (w : Word) : (s.issue w).inbox = .command w s.sinkAnswer :: s.inbox := rfl
@[simp] theorem State.issue_sinkAnswer (s : State) (w : Word) : (s.issue w).sinkAnswer = s.sinkAnswer := rfl

/-! ### `State.append` -/

@[simp] theorem State.append_err (s : State) (x : Sink) (b : Byte) : (s.append x b).err = s.err := by
  cases x <;> rfl
@[simp] theorem State.append_plen (s : State) (x : Sink) (b : Byte) : (s.append x b).plen = s.plen := by
  cases x <;> rfl
@[simp] theorem State.append_wptr (s : State) (x : Sink) (b : Byte) : (s.append x b).wptr = s.wptr := by
  cases x <;> rfl
@[simp] theorem State.append_qout (s : State) (x : Sink) (b : Byte) : (s.append x b).qout = s.qout := by
  cases x <;> rfl
@[simp] theorem State.append_pdone (s : State) (x : Sink) (b : Byte) : (s.append x b).pdone = s.pdone := by
  cases x <;> rfl
@[simp] theorem State.append_edone (s : State) (x : Sink) (b : Byte) : (s.append x b).edone = s.edone := by
  cases x <;> rfl
@[simp] theorem State.append_pal (s : State) (x : Sink) (b : Byte) : (s.append x b).pal = s.pal := by
  cases x <;> rfl
@[simp] theorem State.append_idx (s : State) (x : Sink) (b : Byte) : (s.append x b).idx = s.idx := by
  cases x <;> rfl
@[simp] theorem State.append_scr (s : State) (x : Sink) (b : Byte) : (s.append x b).scr = s.scr := by
  cases x <;> rfl
@[simp] theorem State.append_responses (s : State) (x : Sink) (b : Byte) : (s.append x b).responses = s.responses := by
  cases x <;> rfl
@[simp] theorem State.append_inbox (s : State) (x : Sink) (b : Byte) : (s.append x b).inbox = s.inbox := by
  cases x <;> rfl
@[simp] theorem State.append_sinkAnswer (s : State) (x : Sink) (b : Byte) : (s.append x b).sinkAnswer = s.sinkAnswer := by
  cases x <;> rfl

@[simp] theorem State.appendP_sinkP (s : State) (b : Byte) : (s.append .P b).sinkP = s.sinkP ++ [b] := rfl
@[simp] theorem State.appendP_sinkS (s : State) (b : Byte) : (s.append .P b).sinkS = s.sinkS := rfl
@[simp] theorem State.appendS_sinkP (s : State) (b : Byte) : (s.append .S b).sinkP = s.sinkP := rfl
@[simp] theorem State.appendS_sinkS (s : State) (b : Byte) : (s.append .S b).sinkS = s.sinkS ++ [b] := rfl

/-! ### `State.consume` changes the host's list and the sink's answer alone -/

@[simp] theorem State.consume_err (s : State) : s.consume.err = s.err := by
  unfold State.consume; split <;> rfl
@[simp] theorem State.consume_plen (s : State) : s.consume.plen = s.plen := by
  unfold State.consume; split <;> rfl
@[simp] theorem State.consume_wptr (s : State) : s.consume.wptr = s.wptr := by
  unfold State.consume; split <;> rfl
@[simp] theorem State.consume_qout (s : State) : s.consume.qout = s.qout := by
  unfold State.consume; split <;> rfl
@[simp] theorem State.consume_pdone (s : State) : s.consume.pdone = s.pdone := by
  unfold State.consume; split <;> rfl
@[simp] theorem State.consume_edone (s : State) : s.consume.edone = s.edone := by
  unfold State.consume; split <;> rfl
@[simp] theorem State.consume_pal (s : State) : s.consume.pal = s.pal := by
  unfold State.consume; split <;> rfl
@[simp] theorem State.consume_idx (s : State) : s.consume.idx = s.idx := by
  unfold State.consume; split <;> rfl
@[simp] theorem State.consume_scr (s : State) : s.consume.scr = s.scr := by
  unfold State.consume; split <;> rfl
@[simp] theorem State.consume_sinkP (s : State) : s.consume.sinkP = s.sinkP := by
  unfold State.consume; split <;> rfl
@[simp] theorem State.consume_sinkS (s : State) : s.consume.sinkS = s.sinkS := by
  unfold State.consume; split <;> rfl
@[simp] theorem State.consume_responses (s : State) : s.consume.responses = s.responses := by
  unfold State.consume; split <;> rfl

end Sys2Proof.Machine
end

