-- ==== Sys2Proof/Laws/Ops.lean ====
section
/-!
SUPPORT. What each shared operation can do, said once: the response word, the error entry, offering
bytes to a sink under each answer, the end of a command that offered bytes, the shared entry tests,
reading the palette and the frame.
-/

namespace Sys2Proof.Machine

/-! ### Responses and the error entry -/

theorem responseWord_ok (v : Colour) : responseWord .ok v = 0#16 ++ v := by
  ext i hi
  simp [responseWord, Status.code]

theorem responseWord_ok_setWidth (v : Colour) : responseWord .ok v = v.setWidth 32 := by
  rw [responseWord_ok]
  ext i hi
  simp only [BitVec.getElem_append, BitVec.getElem_setWidth]
  split
  · simp_all
  · simpa using (BitVec.getLsbD_of_ge v i (by omega)).symm

theorem responseWord_error (k : ErrKind) :
    responseWord .error (k.code.setWidth 16) = 0x00010000#32 ||| k.code.setWidth 32 := by
  cases k <;> decide

theorem respond_eq (st : Status) (v : Colour) (s : State) :
    respond st v s = .next (s.answer st v) := rfl

theorem raise_eq (k : ErrKind) (s : State) :
    raise k s = .next ((s.latch k).answer .error (k.code.setWidth 16)) := rfl

theorem refuse_eq (s : State) : refuse s = .next (s.answer .refused (s.err.setWidth 16)) := rfl

/-! ### Sinks -/

/-- The state whose sink has accepted more bytes. -/
def State.appendAll (s : State) (x : Sink) (bs : List Byte) : State :=
  match x with
  | .P => { s with sinkP := s.sinkP ++ bs }
  | .S => { s with sinkS := s.sinkS ++ bs }

theorem State.appendAll_nil (s : State) (x : Sink) : s.appendAll x [] = s := by
  cases x <;> simp [State.appendAll]

theorem State.appendAll_append (s : State) (x : Sink) (b : Byte) (bs : List Byte) :
    (s.append x b).appendAll x bs = s.appendAll x (b :: bs) := by
  cases x <;> simp [State.appendAll, State.append]

@[simp] theorem State.appendAll_err (s : State) (x : Sink) (bs : List Byte) :
    (s.appendAll x bs).err = s.err := by cases x <;> rfl
@[simp] theorem State.appendAll_plen (s : State) (x : Sink) (bs : List Byte) :
    (s.appendAll x bs).plen = s.plen := by cases x <;> rfl
@[simp] theorem State.appendAll_wptr (s : State) (x : Sink) (bs : List Byte) :
    (s.appendAll x bs).wptr = s.wptr := by cases x <;> rfl
@[simp] theorem State.appendAll_qout (s : State) (x : Sink) (bs : List Byte) :
    (s.appendAll x bs).qout = s.qout := by cases x <;> rfl
@[simp] theorem State.appendAll_pdone (s : State) (x : Sink) (bs : List Byte) :
    (s.appendAll x bs).pdone = s.pdone := by cases x <;> rfl
@[simp] theorem State.appendAll_edone (s : State) (x : Sink) (bs : List Byte) :
    (s.appendAll x bs).edone = s.edone := by cases x <;> rfl
@[simp] theorem State.appendAll_pal (s : State) (x : Sink) (bs : List Byte) :
    (s.appendAll x bs).pal = s.pal := by cases x <;> rfl
@[simp] theorem State.appendAll_idx (s : State) (x : Sink) (bs : List Byte) :
    (s.appendAll x bs).idx = s.idx := by cases x <;> rfl
@[simp] theorem State.appendAll_scr (s : State) (x : Sink) (bs : List Byte) :
    (s.appendAll x bs).scr = s.scr := by cases x <;> rfl
@[simp] theorem State.appendAll_responses (s : State) (x : Sink) (bs : List Byte) :
    (s.appendAll x bs).responses = s.responses := by cases x <;> rfl
@[simp] theorem State.appendAll_inbox (s : State) (x : Sink) (bs : List Byte) :
    (s.appendAll x bs).inbox = s.inbox := by cases x <;> rfl
@[simp] theorem State.appendAll_sinkAnswer (s : State) (x : Sink) (bs : List Byte) :
    (s.appendAll x bs).sinkAnswer = s.sinkAnswer := by cases x <;> rfl
@[simp] theorem State.appendAll_P_sinkP (s : State) (bs : List Byte) :
    (s.appendAll .P bs).sinkP = s.sinkP ++ bs := rfl
@[simp] theorem State.appendAll_P_sinkS (s : State) (bs : List Byte) :
    (s.appendAll .P bs).sinkS = s.sinkS := rfl
@[simp] theorem State.appendAll_S_sinkP (s : State) (bs : List Byte) :
    (s.appendAll .S bs).sinkP = s.sinkP := rfl
@[simp] theorem State.appendAll_S_sinkS (s : State) (bs : List Byte) :
    (s.appendAll .S bs).sinkS = s.sinkS ++ bs := rfl

/-- Where the answers to the bytes are all `accepted` and no reset comes before the response, every
byte is appended. -/
theorem putBytes_accepted (x : Sink) (bs : List Byte) (n : Nat) (s : State)
    (h : ∀ i < bs.length, s.sinkAnswer.toByte (n + i) = .accepted)
    (hr : s.sinkAnswer ≠ .resetAt (n + bs.length)) :
    putBytes x n bs s = (s.appendAll x bs, .accepted) := by
  induction bs generalizing n s with
  | nil =>
    rw [State.appendAll_nil]
    simpa [putBytes] using hr
  | cons b bs ih =>
    have h0 : s.sinkAnswer.toByte n = .accepted := h 0 (by simp)
    simp only [putBytes, h0]
    rw [ih (n + 1) (s.append x b) ?_ ?_, State.appendAll_append]
    · intro i hi
      have := h (i + 1) (by simpa using hi)
      rwa [State.append_sinkAnswer, show n + 1 + i = n + (i + 1) by omega]
    · rw [State.append_sinkAnswer]
      simpa [show n + 1 + bs.length = n + (bs.length + 1) by omega] using hr

/-- Where byte `n + i` is the first not accepted, the bytes before it are appended and its answer is
the end. -/
theorem putBytes_stopped (x : Sink) (bs : List Byte) (n i : Nat) (s : State) (hi : i < bs.length)
    (h : ∀ k < i, s.sinkAnswer.toByte (n + k) = .accepted)
    (hs : s.sinkAnswer.toByte (n + i) ≠ .accepted) :
    putBytes x n bs s = (s.appendAll x (bs.take i), s.sinkAnswer.toByte (n + i)) := by
  induction bs generalizing n s i with
  | nil => simp at hi
  | cons b bs ih =>
    cases i with
    | zero =>
      simp only [Nat.add_zero] at hs ⊢
      simp only [putBytes, List.take_zero, State.appendAll_nil]
      split <;> simp_all
    | succ i =>
      have h0 : s.sinkAnswer.toByte n = .accepted := h 0 (by omega)
      have hshift : ∀ k, n + 1 + k = n + (k + 1) := fun k => by omega
      simp only [putBytes, h0]
      rw [ih (n + 1) i (s.append x b) (by simpa using hi) ?_ ?_]
      · simp [State.appendAll_append, hshift]
      · intro k hk
        rw [State.append_sinkAnswer, hshift]
        exact h (k + 1) (by omega)
      · rwa [State.append_sinkAnswer, hshift]

/-- A reset just after the last byte. -/
theorem putBytes_resetAtEnd (x : Sink) (bs : List Byte) (n : Nat) (s : State)
    (h : s.sinkAnswer = .resetAt (n + bs.length)) :
    putBytes x n bs s = (s.appendAll x bs, .reset) := by
  induction bs generalizing n s with
  | nil => simpa [putBytes, State.appendAll_nil] using h
  | cons b bs ih =>
    have h0 : s.sinkAnswer.toByte n = .accepted := by simp [h, SinkAnswer.toByte]
    simp only [putBytes, h0]
    rw [ih (n + 1) (s.append x b) ?_, State.appendAll_append]
    rw [State.append_sinkAnswer, h, List.length_cons, Nat.add_assoc, Nat.add_comm 1]

theorem SinkAnswer.toByte_silent {a : SinkAnswer} {n : Nat} (h : a.toByte n = .silent) :
    ∃ j, a = .silentAt j := by
  cases a <;> simp only [SinkAnswer.toByte] at h
  all_goals first | exact ⟨_, rfl⟩ | cases h | (split at h <;> cases h)

theorem SinkAnswer.toByte_reset {a : SinkAnswer} {n : Nat} (h : a.toByte n = .reset) :
    ∃ j, a = .resetAt j := by
  cases a <;> simp only [SinkAnswer.toByte] at h
  all_goals first | exact ⟨_, rfl⟩ | cases h | (split at h <;> cases h)

/-- Everything `putBytes` can do: it appends some of the first bytes, all of them where it ends
accepted; an end other than `accepted` is the sink's answer. -/
theorem putBytes_cases (x : Sink) (bs : List Byte) (n : Nat) (s : State) :
    ∃ pre, pre <+: bs ∧ (putBytes x n bs s).1 = s.appendAll x pre ∧
      ((putBytes x n bs s).2 = .accepted → pre = bs) ∧
      ((putBytes x n bs s).2 = .silent → ∃ j, s.sinkAnswer = .silentAt j) ∧
      ((putBytes x n bs s).2 = .reset → ∃ j, s.sinkAnswer = .resetAt j) := by
  induction bs generalizing n s with
  | nil =>
    refine ⟨[], List.prefix_rfl, (State.appendAll_nil s x).symm, fun _ => rfl, ?_, ?_⟩
    · simp only [putBytes]
      split <;> simp
    · simp only [putBytes]
      split <;> simp_all
  | cons b bs ih =>
    simp only [putBytes]
    split
    · obtain ⟨pre, hp, h1, h2, h3, h4⟩ := ih (n + 1) (s.append x b)
      refine ⟨b :: pre, ?_, ?_, ?_, ?_, ?_⟩
      · simpa using hp
      · rw [h1, State.appendAll_append]
      · exact fun h => by rw [h2 h]
      · simpa using h3
      · simpa using h4
    all_goals
      rename_i h
      refine ⟨[], List.nil_prefix, (State.appendAll_nil s x).symm, by simp, fun h' => ?_, fun h' => ?_⟩
    all_goals first
      | exact SinkAnswer.toByte_silent h
      | exact SinkAnswer.toByte_reset h
      | cases h'

/-- Offering two runs of bytes one after the other is offering them at once. -/
theorem putBytes_append (x : Sink) (as bs : List Byte) (n : Nat) (s : State) :
    putBytes x n (as ++ bs) s =
      if (putBytes x n as s).2 = .accepted then
        putBytes x (n + as.length) bs (putBytes x n as s).1
      else putBytes x n as s := by
  induction as generalizing n s with
  | nil =>
    by_cases h : s.sinkAnswer = .resetAt n
    · cases bs <;> simp [putBytes, h, SinkAnswer.toByte]
    · simp [putBytes, h]
  | cons a as ih =>
    simp only [List.cons_append, putBytes, List.length_cons]
    obtain ⟨v, hv⟩ : ∃ v, s.sinkAnswer.toByte n = v := ⟨_, rfl⟩
    cases v <;> simp [hv, ih, show n + 1 + as.length = n + (as.length + 1) by omega]

/-- Offering bytes neither reads nor writes the scratch memory. -/
theorem putBytes_withScr (x : Sink) (bs : List Byte) (n : Nat) (s : State) (m : Memory 8) :
    putBytes x n bs { s with scr := m } =
      ({ (putBytes x n bs s).1 with scr := m }, (putBytes x n bs s).2) := by
  induction bs generalizing n s with
  | nil => rfl
  | cons b bs ih =>
    have ha : ({ s with scr := m } : State).append x b = { s.append x b with scr := m } := by
      cases x <;> rfl
    simp only [putBytes, ha, ih]
    split <;> rfl

/-- Everything the end of a command that offered bytes can be, when it is a next state. -/
theorem finishPut_next {x : Sink} {r : State × PutAnswer} {done : State → State} {val : Colour}
    {t : State} (h : finishPut x r done val = .next t) :
    (r.2 = .accepted ∧ t = (done r.1).answer .ok val) ∨
    (r.2 = .failed ∧ t = (r.1.latch .sinkIo).answer .error 4#16) ∨
    (r.2 = .reset ∧ t = r.1.coreReset) := by
  unfold finishPut at h
  split at h <;> rename_i hr
  · exact .inl ⟨hr, by simpa [respond, eq_comm] using h⟩
  · exact .inr (.inl ⟨hr, by simpa [raise, respond, ErrKind.code, eq_comm] using h⟩)
  · simp at h
  · exact .inr (.inr ⟨hr, by simpa [eq_comm] using h⟩)

/-- Everything the shared entry tests can do, when they answer a next state. -/
theorem whenImageComplete_next {s t : State} {run : Host.Outcome State Fault Refusal}
    (h : whenImageComplete s run = .next t) :
    (s.err ≠ 0#3 ∧ t = s.answer .refused (s.err.setWidth 16)) ∨
    (s.err = 0#3 ∧ s.plen = 0#8 ∧ t = (s.latch .empty).answer .error 2#16) ∨
    (s.err = 0#3 ∧ s.plen ≠ 0#8 ∧ s.wptr ≠ 256#9 ∧ t = (s.latch .shape).answer .error 3#16) ∨
    (s.err = 0#3 ∧ s.plen ≠ 0#8 ∧ s.wptr = 256#9 ∧ run = .next t) := by
  unfold whenImageComplete at h
  split at h <;> rename_i h1
  · exact .inl ⟨h1, by simpa [refuse, respond, eq_comm] using h⟩
  · have h1 : s.err = 0#3 := by simpa using h1
    split at h <;> rename_i h2
    · exact .inr (.inl ⟨h1, h2, by simpa [raise, respond, ErrKind.code, eq_comm] using h⟩)
    · split at h <;> rename_i h3
      · exact .inr (.inr (.inl
          ⟨h1, h2, h3, by simpa [raise, respond, ErrKind.code, eq_comm] using h⟩))
      · exact .inr (.inr (.inr ⟨h1, h2, by simpa using h3, h⟩))

/-- On a whole image with no error latched the shared entry tests pass. -/
theorem whenImageComplete_pass {s : State} (run : Host.Outcome State Fault Refusal)
    (he : s.err = 0#3) (hp : s.plen ≠ 0#8) (hw : s.wptr = 256#9) :
    whenImageComplete s run = run := by
  simp [whenImageComplete, he, hp, hw]

/-! ### The palette and the frame -/

theorem State.palette_of_read {s : State} {p : Nat → Colour}
    (h : ∀ k < s.plen.toNat, s.pal.read k = some (p k)) :
    s.palette = .ok ((List.range s.plen.toNat).map p) := readUpto_of_read h

theorem State.frame_of_read {s : State} {f : Nat → Byte}
    (h : ∀ a < 256, s.idx.read a = some (f a)) :
    s.frame = .ok ((List.range 256).map f) := by
  unfold State.frame
  exact readUpto_of_read h

end Sys2Proof.Machine
end

