-- ==== Sys2Proof/Laws/Encoder.lean ====
section
/-!
SUPPORT. What the parts of `ENCODE` do to the scratch memory, read cell by cell: clearing, setup,
packing one row, packing every row, emitting (42_bitplane_encoder.md R143 to R148).
-/

namespace Sys2Proof.Machine

/-- The three coordinates of a scratch cell are recovered from its number (R144). -/
theorem cell_eq {bp r c : Nat} (hb : bp < 4) :
    cell bp r c = 128 * (bp / 2) + 16 * r + 8 * (bp % 2) + c := by
  have : bp = 0 ∨ bp = 1 ∨ bp = 2 ∨ bp = 3 := by omega
  rcases this with rfl | rfl | rfl | rfl <;>
    simp [cell, Config.tile, Config.stride] <;> omega

/-- Distinct `(bp, r, c)` have distinct cells (R151). -/
theorem cell_inj {bp r c bp' r' c' : Nat} (hb : bp < 4) (hr : r < 8) (hc : c < 8)
    (hb' : bp' < 4) (hr' : r' < 8) (hc' : c' < 8) :
    cell bp r c = cell bp' r' c' ↔ bp = bp' ∧ r = r' ∧ c = c' := by
  rw [cell_eq hb, cell_eq hb']
  omega

theorem cell_lt {bp r c : Nat} (hb : bp < 4) (hr : r < 8) (hc : c < 8) : cell bp r c < 256 := by
  rw [cell_eq hb]
  omega

theorem pixelEntry_lt {t r c : Nat} (ht : t < 4) (hr : r < 8) (hc : c < 8) :
    pixelEntry t r c < 256 := cell_lt ht hr hc

/-! ### Setup -/

/-- Setting one pixel up writes its four bits and leaves every other pixel's cells alone (R143). -/
theorem setupPixel_read (v : Byte) (m : Memory 8) {r c bp' r' c' : Nat} (hr : r < 8) (hc : c < 8)
    (hb' : bp' < 4) (hr' : r' < 8) (hc' : c' < 8) :
    (setupPixel v r c m).read (cell bp' r' c') =
      if r' = r ∧ c' = c then some (bitOf v bp') else m.read (cell bp' r' c') := by
  have h4 : List.range Config.bpp = [0, 1, 2, 3] := rfl
  simp only [setupPixel, h4, List.foldl_cons, List.foldl_nil, Memory.read_write]
  simp only [cell_inj hb' hr' hc' (show 0 < 4 by omega) hr hc,
    cell_inj hb' hr' hc' (show 1 < 4 by omega) hr hc,
    cell_inj hb' hr' hc' (show 2 < 4 by omega) hr hc,
    cell_inj hb' hr' hc' (show 3 < 4 by omega) hr hc]
  have : bp' = 0 ∨ bp' = 1 ∨ bp' = 2 ∨ bp' = 3 := by omega
  rcases this with rfl | rfl | rfl | rfl <;> simp

/-- Setting up the pixels of a row at columns `cs`. -/
theorem setupColumns_read (v : Nat → Byte) (cs : List Nat) (hcs : ∀ c ∈ cs, c < 8) (m : Memory 8)
    {r bp' r' c' : Nat} (hr : r < 8) (hb' : bp' < 4) (hr' : r' < 8) (hc' : c' < 8) :
    (cs.foldl (fun m c => setupPixel (v c) r c m) m).read (cell bp' r' c') =
      if r' = r ∧ c' ∈ cs then some (bitOf (v c') bp') else m.read (cell bp' r' c') := by
  induction cs generalizing m with
  | nil => simp
  | cons c cs ih =>
    rw [List.foldl_cons, ih (fun c h => hcs c (List.mem_cons_of_mem _ h)),
      setupPixel_read _ _ hr (hcs c (List.mem_cons_self ..)) hb' hr' hc']
    by_cases h1 : r' = r <;> by_cases h2 : c' = c <;> by_cases h3 : c' ∈ cs <;> simp [h1, h2, h3]

/-- Setting up the rows `rs` of a tile. -/
theorem setupRows_read (v : Nat → Nat → Byte) (rs : List Nat) (hrs : ∀ r ∈ rs, r < 8)
    (m : Memory 8) {bp' r' c' : Nat} (hb' : bp' < 4) (hr' : r' < 8) (hc' : c' < 8) :
    (rs.foldl (fun m r => (List.range Config.tile).foldl
        (fun m c => setupPixel (v r c) r c m) m) m).read (cell bp' r' c') =
      if r' ∈ rs then some (bitOf (v r' c') bp') else m.read (cell bp' r' c') := by
  have hcols : ∀ c ∈ List.range Config.tile, c < 8 := fun c h => by
    simpa [Config.tile] using h
  have hmem : c' ∈ List.range Config.tile := by simpa [Config.tile] using hc'
  induction rs generalizing m with
  | nil => simp
  | cons r rs ih =>
    rw [List.foldl_cons, ih (fun r h => hrs r (List.mem_cons_of_mem _ h)),
      setupColumns_read _ _ hcols _ (hrs r (List.mem_cons_self ..)) hb' hr' hc']
    by_cases h1 : r' = r <;> by_cases h3 : r' ∈ rs <;> simp [h1, h3, hmem]

/-- After setup every cell holds its bit, whatever the memory held before (R143, R158). -/
theorem setupTile_read (frame : List Byte) (t : Nat) (m : Memory 8) {bp r c : Nat}
    (hb : bp < 4) (hr : r < 8) (hc : c < 8) :
    (setupTile frame t m).read (cell bp r c) =
      some (bitOf (frame.getD (pixelEntry t r c) 0#8) bp) := by
  have h := setupRows_read (fun r c => frame.getD (pixelEntry t r c) 0#8)
    (List.range Config.tile) (fun r h => by simpa [Config.tile] using h) m hb hr hc
  rwa [if_pos (by simpa [Config.tile] using hr)] at h

/-! ### Pack -/

/-- The packed byte of a row whose column `c` holds `bits c`: shift left, exclusive-or in (R146). -/
def packedByte (bits : Nat → Byte) : Byte :=
  (List.range Config.tile).foldl (fun acc c => (acc <<< 1) ^^^ bits c) 0#8

theorem packColumns_eq (m : Memory 8) (bp r : Nat) (bits : Nat → Byte) (cs : List Nat) (acc : Byte)
    (h : ∀ c ∈ cs, m.read (cell bp r c) = some (bits c)) :
    packColumns m bp r cs acc = .ok (cs.foldl (fun acc c => (acc <<< 1) ^^^ bits c) acc) := by
  induction cs generalizing acc with
  | nil => rfl
  | cons c cs ih =>
    have hc := (readEntry_ok_iff .scr m (cell bp r c) (bits c)).mpr (h c (List.mem_cons_self ..))
    simp only [packColumns, hc, List.foldl_cons]
    exact ih _ fun c hc => h c (List.mem_cons_of_mem _ hc)

/-- Packing a row whose columns are written puts its packed byte in its first column (R147). -/
theorem packRow_eq (m : Memory 8) (bp r : Nat) (bits : Nat → Byte)
    (h : ∀ c < 8, m.read (cell bp r c) = some (bits c)) :
    packRow m bp r = .ok (m.write (cell bp r 0) (packedByte bits)) := by
  simp only [packRow]
  rw [packColumns_eq m bp r bits _ _ fun c hc => h c (by simpa [Config.tile] using hc)]
  rfl

/-- Packing the rows listed, no row twice: the first column of each holds its packed byte, and every
cell of a row not listed is as before. -/
theorem packRows_eq (rows : List (Nat × Nat)) (hrows : ∀ p ∈ rows, p.1 < 4 ∧ p.2 < 8)
    (hnd : rows.Nodup) (m : Memory 8) (bits : Nat → Nat → Nat → Byte)
    (h : ∀ p ∈ rows, ∀ c < 8, m.read (cell p.1 p.2 c) = some (bits p.1 p.2 c)) :
    ∃ m', packRows rows m = .ok m' ∧
      (∀ p ∈ rows, m'.read (cell p.1 p.2 0) = some (packedByte (bits p.1 p.2))) ∧
      (∀ bp r c, bp < 4 → r < 8 → c < 8 → (bp, r) ∉ rows →
        m'.read (cell bp r c) = m.read (cell bp r c)) := by
  induction rows generalizing m with
  | nil => exact ⟨m, rfl, by simp, fun _ _ _ _ _ _ _ => rfl⟩
  | cons p rows ih =>
    obtain ⟨bp, r⟩ := p
    obtain ⟨hnot, hnd⟩ := List.nodup_cons.mp hnd
    obtain ⟨hb, hr⟩ := hrows (bp, r) (List.mem_cons_self ..)
    have hrow := packRow_eq m bp r (bits bp r) (h (bp, r) (List.mem_cons_self ..))
    have hkeep : ∀ bp' r' c', bp' < 4 → r' < 8 → c' < 8 → (bp', r') ≠ (bp, r) →
        (m.write (cell bp r 0) (packedByte (bits bp r))).read (cell bp' r' c') =
          m.read (cell bp' r' c') := by
      intro bp' r' c' hb' hr' hc' hne
      refine Memory.read_write_other _ _ fun he => hne ?_
      obtain ⟨h1, h2, -⟩ := (cell_inj hb' hr' hc' hb hr (by omega)).mp he
      simp [h1, h2]
    obtain ⟨m', hm', hin, hout⟩ := ih (fun p hp => hrows p (List.mem_cons_of_mem _ hp)) hnd
      (m.write (cell bp r 0) (packedByte (bits bp r))) (fun p hp c hc => by
        obtain ⟨hpb, hpr⟩ := hrows p (List.mem_cons_of_mem _ hp)
        rw [hkeep p.1 p.2 c hpb hpr hc (fun he => hnot (he ▸ hp))]
        exact h p (List.mem_cons_of_mem _ hp) c hc)
    refine ⟨m', by simp only [packRows, hrow, hm'], fun p hp => ?_, fun bp' r' c' hb' hr' hc' hn => ?_⟩
    · rcases List.mem_cons.mp hp with rfl | hp
      · rw [hout bp r 0 hb hr (by omega) hnot, Memory.read_write_same]
      · exact hin p hp
    · rw [hout bp' r' c' hb' hr' hc' fun hm => hn (List.mem_cons_of_mem _ hm),
        hkeep bp' r' c' hb' hr' hc' fun he => hn (he ▸ List.mem_cons_self ..)]

/-! ### Emit -/

/-- Emitting rows whose first columns are written (R148). -/
theorem emitRows_eq (m : Memory 8) (bytes : Nat → Nat → Byte) (rows : List (Nat × Nat))
    (h : ∀ p ∈ rows, m.read (cell p.1 p.2 0) = some (bytes p.1 p.2)) :
    emitRows m rows = .ok (rows.map fun p => bytes p.1 p.2) := by
  induction rows with
  | nil => rfl
  | cons p rows ih =>
    obtain ⟨bp, r⟩ := p
    have hp := (readEntry_ok_iff .scr m (cell bp r 0) (bytes bp r)).mpr
      (h (bp, r) (List.mem_cons_self ..))
    simp only [emitRows, hp, ih fun p hp => h p (List.mem_cons_of_mem _ hp), List.map_cons]

theorem packOrder_bounds : ∀ p ∈ packOrder, p.1 < 4 ∧ p.2 < 8 := by decide

theorem packOrder_nodup : packOrder.Nodup := by decide

theorem emitOrder_packed : ∀ p ∈ emitOrder, p ∈ packOrder := by decide

/-- One tile's scratch memory after packing, and the bytes read from it in the order of emission,
whatever the memory held before (R143 to R148, R158). -/
theorem packedScratch_emits (frame : List Byte) (t : Nat) (m : Memory 8) :
    ∃ m', packedScratch frame t m = .ok m' ∧
      emitRows m' emitOrder = .ok (emitOrder.map fun p =>
        packedByte fun c => bitOf (frame.getD (pixelEntry t p.2 c) 0#8) p.1) := by
  obtain ⟨m', hm', hin, -⟩ := packRows_eq packOrder packOrder_bounds packOrder_nodup
    (setupTile frame t (clearScratch m))
    (fun bp r c => bitOf (frame.getD (pixelEntry t r c) 0#8) bp)
    (fun p hp c hc => by
      obtain ⟨hb, hr⟩ := packOrder_bounds p hp
      exact setupTile_read frame t _ hb hr hc)
  refine ⟨m', ?_, emitRows_eq m'
    (fun bp r => packedByte fun c => bitOf (frame.getD (pixelEntry t r c) 0#8) bp) _
    fun p hp => hin p (emitOrder_packed p hp)⟩
  unfold packedScratch
  exact hm'

/-! ### The canonical form of the scratch memory -/

theorem foldl_wf {α : Type} {size : Nat} (f : Memory 8 → α → Memory 8) (as : List α)
    (hf : ∀ a ∈ as, ∀ m : Memory 8, m.wf size → (f m a).wf size) (m : Memory 8) (h : m.wf size) :
    (as.foldl f m).wf size := by
  induction as generalizing m with
  | nil => exact h
  | cons a as ih =>
    exact ih (fun b hb => hf b (List.mem_cons_of_mem _ hb)) _ (hf a (List.mem_cons_self ..) m h)

theorem clearScratch_wf {m : Memory 8} (h : m.wf 256) : (clearScratch m).wf 256 :=
  foldl_wf _ _ (fun a ha m h => Memory.wf_write _ h (by simpa [Config.scrCap] using ha)) m h

theorem setupPixel_wf (v : Byte) {r c : Nat} (hr : r < 8) (hc : c < 8) {m : Memory 8}
    (h : m.wf 256) : (setupPixel v r c m).wf 256 :=
  foldl_wf _ _ (fun bp hb m h =>
    Memory.wf_write _ h (cell_lt (by simpa [Config.bpp] using hb) hr hc)) m h

theorem setupTile_wf (frame : List Byte) (t : Nat) {m : Memory 8} (h : m.wf 256) :
    (setupTile frame t m).wf 256 := by
  refine foldl_wf _ _ (fun r hr m h => foldl_wf _ _ (fun c hc m h => ?_) m h) m h
  exact setupPixel_wf _ (by simpa [Config.tile] using hr) (by simpa [Config.tile] using hc) h

theorem packRows_wf (rows : List (Nat × Nat)) (hrows : ∀ p ∈ rows, p.1 < 4 ∧ p.2 < 8)
    {m m' : Memory 8} (h : m.wf 256) (hm : packRows rows m = .ok m') : m'.wf 256 := by
  induction rows generalizing m with
  | nil =>
    obtain rfl : m = m' := by simpa [packRows] using hm
    exact h
  | cons p rows ih =>
    obtain ⟨bp, r⟩ := p
    obtain ⟨hb, hr⟩ := hrows (bp, r) (List.mem_cons_self ..)
    simp only [packRows, packRow] at hm
    split at hm
    · rename_i m1 hm1
      split at hm1
      · rename_i acc _
        obtain rfl : m.write (cell bp r 0) acc = m1 := by simpa using hm1
        exact ih (fun p hp => hrows p (List.mem_cons_of_mem _ hp))
          (Memory.wf_write _ h (cell_lt hb hr (by omega))) hm
      · simp at hm1
    · simp at hm

/-- One tile keeps the scratch memory's canonical form. -/
theorem packedScratch_wf {frame : List Byte} {t : Nat} {m m' : Memory 8} (h : m.wf 256)
    (hm : packedScratch frame t m = .ok m') : m'.wf 256 := by
  unfold packedScratch at hm
  exact packRows_wf packOrder packOrder_bounds (setupTile_wf frame t (clearScratch_wf h)) hm

/-! ### Whole tiles -/

/-- The 32 bytes of tile `t` in the order of emission (R148). -/
def tileStream (frame : List Byte) (t : Nat) : List Byte :=
  emitOrder.map fun p => packedByte fun c => bitOf (frame.getD (pixelEntry t p.2 c) 0#8) p.1

theorem tileStream_length (frame : List Byte) (t : Nat) : (tileStream frame t).length = 32 := by
  rw [tileStream, List.length_map]
  decide

/-- One tile offers its 32 bytes and leaves some scratch memory in canonical form, whatever it held
before (R140). -/
theorem encodeTile_eq (frame : List Byte) (t : Nat) (s : State) :
    ∃ m, (s.scr.wf 256 → Memory.wf 256 m) ∧ encodeTile frame t s =
      .ok ({ (putBytes .S (32 * t) (tileStream frame t) s).1 with scr := m },
        (putBytes .S (32 * t) (tileStream frame t) s).2) := by
  obtain ⟨m, hm, he⟩ := packedScratch_emits frame t s.scr
  refine ⟨m, fun h => packedScratch_wf h hm, ?_⟩
  have h1 : encodeTile frame t s = .ok (putBytes .S (32 * t) (tileStream frame t) { s with scr := m }) := by
    unfold encodeTile
    simp only [hm, he]
    rw [show Config.tileBytes = 32 from rfl]
    rw [tileStream]
  rw [h1, putBytes_withScr]

/-- Tiles `t, t+1, .. , t+k-1` offer their bytes as one stream beginning at byte `32 t` (R142). -/
theorem encodeTiles_eq (frame : List Byte) (k t : Nat) (s : State) (hk : 0 < k) :
    ∃ m, (s.scr.wf 256 → Memory.wf 256 m) ∧ encodeTiles frame (List.range' t k) s =
      .ok ({ (putBytes .S (32 * t) ((List.range' t k).flatMap (tileStream frame)) s).1 with scr := m },
        (putBytes .S (32 * t) ((List.range' t k).flatMap (tileStream frame)) s).2) := by
  induction k generalizing t s with
  | zero => omega
  | succ k ih =>
    obtain ⟨m, hwf, hm⟩ := encodeTile_eq frame t s
    have happ := putBytes_append .S (tileStream frame t)
      ((List.range' (t + 1) k).flatMap (tileStream frame)) (32 * t) s
    rw [tileStream_length, show 32 * t + 32 = 32 * (t + 1) by omega] at happ
    rw [List.range'_succ, List.flatMap_cons, happ, encodeTiles, hm]
    generalize hp : putBytes .S (32 * t) (tileStream frame t) s = p
    obtain ⟨s', a⟩ := p
    cases a
    case accepted =>
      simp only [if_true]
      cases k with
      | zero =>
        have hnil := putBytes_append .S (tileStream frame t) [] (32 * t) s
        rw [List.append_nil, hp, if_pos rfl, tileStream_length,
          show 32 * t + 32 = 32 * (t + 1) by omega] at hnil
        refine ⟨m, hwf, ?_⟩
        simp only [List.range'_zero, List.flatMap_nil, ← hnil, encodeTiles]
      | succ k =>
        obtain ⟨m', hwf', hm'⟩ := ih (t + 1) { s' with scr := m } (by omega)
        rw [putBytes_withScr] at hm'
        exact ⟨m', fun h => hwf' (hwf h), hm'⟩
    all_goals exact ⟨m, hwf, by simp⟩

/-- `ENCODE` on a whole image offers the four tiles' bytes as one stream (R140, R149). -/
theorem execEncode_eq {s : State} {frame : List Byte} (he : s.err = 0#3) (hp : s.plen ≠ 0#8)
    (hw : s.wptr = 256#9) (hf : s.frame = .ok frame) :
    ∃ m, (s.scr.wf 256 → Memory.wf 256 m) ∧ execEncode s = finishPut .S
      ({ (putBytes .S 0 ((List.range 4).flatMap (tileStream frame)) s).1 with scr := m },
        (putBytes .S 0 ((List.range 4).flatMap (tileStream frame)) s).2) State.setEdone 128#16 := by
  obtain ⟨m, hwf, hm⟩ := encodeTiles_eq frame 4 0 s (by omega)
  rw [← List.range_eq_range'] at hm
  refine ⟨m, hwf, ?_⟩
  simp only [execEncode, whenImageComplete_pass _ he hp hw, hf, Config.ntiles, hm,
    Config.spriteBytes, Nat.mul_zero]

end Sys2Proof.Machine
end

