-- ==== Sys2Proof/Laws/Commands.lean ====
section
/-!
SUPPORT. Everything a command, and a step, can answer as a next state: one lemma per family, over the
lemmas of the shared operations, so that no proof about all commands unfolds a meaning.
-/

namespace Sys2Proof.Machine

/-! ### Searching the palette -/

/-- A position `lookup` answers holds the colour. -/
theorem lookup_holds {c : Colour} {pal : List Colour} {k : Nat} (h : lookup c pal = some k) :
    ∃ hk : k < pal.length, pal[k] = c := by
  induction pal generalizing k with
  | nil => simp [lookup] at h
  | cons d ds ih =>
    simp only [lookup] at h
    split at h <;> rename_i hd
    · obtain rfl : 0 = k := by simpa using h
      exact ⟨by simp, hd⟩
    · obtain ⟨j, hj, rfl⟩ := Option.map_eq_some_iff.mp h
      obtain ⟨hlt, hc⟩ := ih hj
      exact ⟨by simpa using hlt, by simpa using hc⟩

/-- Where `lookup` finds nothing no entry is the colour. -/
theorem lookup_absent {c : Colour} {pal : List Colour} (h : lookup c pal = none) :
    ∀ d ∈ pal, d ≠ c := by
  induction pal with
  | nil => simp
  | cons d ds ih =>
    simp only [lookup] at h
    split at h <;> simp_all

/-! ### The commands -/

/-- Everything `PIX` can answer: refused, `SHAPE`, `CAPACITY`, the colour found, the colour
appended. -/
theorem execPix_next {r g b : Byte} {s t : State} (h : execPix r g b s = .next t) :
    (s.err ≠ 0#3 ∧ t = s.answer .refused (s.err.setWidth 16)) ∨
    (s.err = 0#3 ∧ s.wptr = 256#9 ∧ t = (s.latch .shape).answer .error 3#16) ∨
    (s.err = 0#3 ∧ s.plen = 255#8 ∧ t = (s.latch .capacity).answer .error 1#16) ∨
    (s.err = 0#3 ∧ s.wptr.toNat < 256 ∧ ∃ k < s.plen.toNat, s.pal.read k = some (quant r g b) ∧
      t = ({ s with
        idx := s.idx.write s.wptr.toNat (BitVec.ofNat 8 (k + 1)),
        wptr := s.wptr + 1#9 } : State).answer .ok ((BitVec.ofNat 8 (k + 1)).setWidth 16)) ∨
    (s.err = 0#3 ∧ s.wptr.toNat < 256 ∧ s.plen.toNat < 255 ∧
      (∀ k < s.plen.toNat, ∃ v, s.pal.read k = some v ∧ v ≠ quant r g b) ∧
      t = ({ s with
        pal := s.pal.write s.plen.toNat (quant r g b),
        plen := s.plen + 1#8,
        idx := s.idx.write s.wptr.toNat (s.plen + 1#8),
        wptr := s.wptr + 1#9 } : State).answer .ok ((s.plen + 1#8).setWidth 16)) := by
  unfold execPix at h
  split at h <;> rename_i h1
  · exact .inl ⟨h1, by simpa [refuse, respond, eq_comm] using h⟩
  replace h1 : s.err = 0#3 := by simpa using h1
  split at h <;> rename_i h2
  · exact .inr (.inl ⟨h1, h2, by simpa [raise, respond, ErrKind.code, eq_comm] using h⟩)
  cases hp : s.palette with
  | error f => simp [hp] at h
  | ok pal =>
    simp only [hp] at h
    obtain ⟨hl, hr⟩ := readUpto_ok hp
    cases hk : lookup (quant r g b) pal with
    | some k =>
      simp only [hk, acceptPixel] at h
      cases hw : writeEntry .idx s.idx s.wptr.toNat (BitVec.ofNat 8 (k + 1)) with
      | error f => simp [hw] at h
      | ok m =>
        simp only [hw, respond] at h
        obtain ⟨hlt, rfl⟩ := (writeEntry_ok_iff ..).mp hw
        obtain ⟨g1, g2⟩ := lookup_holds hk
        refine .inr (.inr (.inr (.inl ⟨h1, hlt, k, by omega, by rw [hr k g1, g2], ?_⟩)))
        simpa [eq_comm] using h
    | none =>
      simp only [hk] at h
      split at h <;> rename_i h3
      · exact .inr (.inr (.inl
          ⟨h1, h3, by simpa [raise, respond, ErrKind.code, eq_comm] using h⟩))
      · simp only [acceptPixel] at h
        cases hw : writeEntry .idx (s.appendColour (quant r g b)).idx
            (s.appendColour (quant r g b)).wptr.toNat (s.plen + 1#8) with
        | error f => rw [hw] at h; simp at h
        | ok m =>
          rw [hw] at h
          simp only [respond] at h
          obtain ⟨hlt, rfl⟩ := (writeEntry_ok_iff ..).mp hw
          have hne : s.plen.toNat ≠ 255 := fun he => h3 (BitVec.eq_of_toNat_eq (by simpa using he))
          refine .inr (.inr (.inr (.inr ⟨h1, hlt, by have := s.plen.isLt; omega, ?_, ?_⟩)))
          · intro k hk'
            exact ⟨_, hr k (by omega), lookup_absent hk _ (List.getElem_mem ..)⟩
          · simpa [eq_comm, State.appendColour] using h

/-- Everything `WRPAL` can answer: refused, `EMPTY`, `SHAPE`, or some first bytes of the palette
stream in sink `P` and one of the three ends. -/
theorem execWrpal_next {s t : State} (h : execWrpal s = .next t) :
    (s.err ≠ 0#3 ∧ t = s.answer .refused (s.err.setWidth 16)) ∨
    (s.err = 0#3 ∧ s.plen = 0#8 ∧ t = (s.latch .empty).answer .error 2#16) ∨
    (s.err = 0#3 ∧ s.plen ≠ 0#8 ∧ s.wptr ≠ 256#9 ∧ t = (s.latch .shape).answer .error 3#16) ∨
    (s.err = 0#3 ∧ s.plen ≠ 0#8 ∧ s.wptr = 256#9 ∧ ∃ pal pre,
      s.palette = .ok pal ∧ pre <+: paletteStream pal ∧
      ((pre = paletteStream pal ∧
          t = (s.appendAll .P pre).setPdone.answer .ok (2#16 + 2#16 * s.plen.setWidth 16)) ∨
        t = ((s.appendAll .P pre).latch .sinkIo).answer .error 4#16 ∨
        (t = (s.appendAll .P pre).coreReset ∧ ∃ j, s.sinkAnswer = .resetAt j))) := by
  unfold execWrpal at h
  rcases whenImageComplete_next h with h | ⟨h1, h2, h3⟩ | ⟨h1, h2, h3, h4⟩ | ⟨h1, h2, h3, h4⟩
  · exact .inl h
  · exact .inr (.inl ⟨h1, h2, h3⟩)
  · exact .inr (.inr (.inl ⟨h1, h2, h3, h4⟩))
  · cases hp : s.palette with
    | error f => simp [hp] at h4
    | ok pal =>
      simp only [hp] at h4
      obtain ⟨pre, g1, g2, g3, -, g5⟩ := putBytes_cases .P (paletteStream pal) 0 s
      refine .inr (.inr (.inr ⟨h1, h2, h3, pal, pre, rfl, g1, ?_⟩))
      rcases finishPut_next h4 with ⟨k1, k2⟩ | ⟨k1, k2⟩ | ⟨k1, k2⟩
      · exact .inl ⟨g3 k1, by rw [k2, g2]⟩
      · exact .inr (.inl (by rw [k2, g2]))
      · exact .inr (.inr ⟨by rw [k2, g2], g5 k1⟩)

/-- Everything `ENCODE` can answer: refused, `EMPTY`, `SHAPE`, or some first bytes of the four tiles'
stream in sink `S`, some scratch memory, and one of the three ends. -/
theorem execEncode_next {s t : State} (h : execEncode s = .next t) :
    (s.err ≠ 0#3 ∧ t = s.answer .refused (s.err.setWidth 16)) ∨
    (s.err = 0#3 ∧ s.plen = 0#8 ∧ t = (s.latch .empty).answer .error 2#16) ∨
    (s.err = 0#3 ∧ s.plen ≠ 0#8 ∧ s.wptr ≠ 256#9 ∧ t = (s.latch .shape).answer .error 3#16) ∨
    (s.err = 0#3 ∧ s.plen ≠ 0#8 ∧ s.wptr = 256#9 ∧ ∃ frame pre m,
      s.frame = .ok frame ∧ (s.scr.wf 256 → Memory.wf 256 m) ∧
      pre <+: (List.range 4).flatMap (tileStream frame) ∧
      ((pre = (List.range 4).flatMap (tileStream frame) ∧
          t = ({ s.appendAll .S pre with scr := m } : State).setEdone.answer .ok 128#16) ∨
        t = (({ s.appendAll .S pre with scr := m } : State).latch .sinkIo).answer .error 4#16 ∨
        (t = (s.appendAll .S pre).coreReset ∧ ∃ j, s.sinkAnswer = .resetAt j))) := by
  have h0 := h
  unfold execEncode at h
  rcases whenImageComplete_next h with h | ⟨h1, h2, h3⟩ | ⟨h1, h2, h3, h4⟩ | ⟨h1, h2, h3, h4⟩
  · exact .inl h
  · exact .inr (.inl ⟨h1, h2, h3⟩)
  · exact .inr (.inr (.inl ⟨h1, h2, h3, h4⟩))
  · cases hp : s.frame with
    | error f => simp [hp] at h4
    | ok frame =>
      obtain ⟨m, hwf, hm⟩ := execEncode_eq h1 h2 h3 hp
      replace h4 := hm.symm.trans h0
      obtain ⟨pre, g1, g2, g3, -, g5⟩ :=
        putBytes_cases .S ((List.range 4).flatMap (tileStream frame)) 0 s
      refine .inr (.inr (.inr ⟨h1, h2, h3, frame, pre, m, rfl, hwf, g1, ?_⟩))
      rcases finishPut_next h4 with ⟨k1, k2⟩ | ⟨k1, k2⟩ | ⟨k1, k2⟩
      · exact .inl ⟨g3 k1, by rw [k2, g2]⟩
      · exact .inr (.inl (by rw [k2, g2]))
      · exact .inr (.inr ⟨by rw [k2, g2]; rfl, g5 k1⟩)

/-- Everything `RDREG`, `RDPAL` and `RDIDX` can answer: a value and nothing changed, or
`ILLEGAL_CMD`. -/
theorem execRead_next {i : Instr} {s t : State} (h : exec i s = .next t)
    (hi : (∃ n, i = .rdreg n) ∨ (∃ k, i = .rdpal k) ∨ ∃ a, i = .rdidx a) :
    (∃ v, t = s.answer .ok v) ∨ t = (s.latch .illegalCmd).answer .error 5#16 := by
  rcases hi with ⟨n, rfl⟩ | ⟨k, rfl⟩ | ⟨a, rfl⟩
  · simp only [exec, execRdreg] at h
    cases hv : s.reg n <;> simp only [hv] at h
    · exact .inr (by simpa [raise, respond, ErrKind.code, eq_comm] using h)
    · exact .inl ⟨_, by simpa [respond, eq_comm] using h⟩
  · simp only [exec, execRdpal] at h
    split at h
    · exact .inr (by simpa [raise, respond, ErrKind.code, eq_comm] using h)
    · cases hv : s.palEntry k.toNat <;> simp only [hv] at h
      · simp at h
      · exact .inl ⟨_, by simpa [respond, eq_comm] using h⟩
  · simp only [exec, execRdidx] at h
    split at h
    · exact .inr (by simpa [raise, respond, ErrKind.code, eq_comm] using h)
    · cases hv : s.idxEntry a.toNat <;> simp only [hv] at h
      · simp at h
      · exact .inl ⟨_, by simpa [respond, eq_comm] using h⟩

/-! ### A step -/

/-- Everything a step can answer: nothing to do, a command, an illegal word, a reset. -/
theorem step_next {s t : State} (h : step s = .next t) :
    (s.inbox = [] ∧ t = s) ∨
    (∃ i, fetch s = .run i ∧ exec i s.consume = .next t) ∨
    (fetch s = .illegal ∧ t = (s.consume.latch .illegalCmd).answer .error 5#16) ∨
    (fetch s = .reset ∧ t = s.consume.coreReset) := by
  unfold step at h
  split at h <;> rename_i hf
  · refine .inl ⟨?_, by simpa [eq_comm] using h⟩
    unfold fetch at hf
    split at hf
    · assumption
    · split at hf <;> simp at hf
    · simp at hf
    · simp at hf
  · exact .inr (.inl ⟨_, hf, h⟩)
  · exact .inr (.inr (.inl
      ⟨hf, by simpa [illegalWord, raise, respond, ErrKind.code, eq_comm] using h⟩))
  · exact .inr (.inr (.inr ⟨hf, by simpa [resetEvent, eq_comm] using h⟩))
  · simp at h

end Sys2Proof.Machine
end

