-- ==== Sys2Proof/Laws/Encoding.lean ====
section
/-!
SUPPORT. The fields of a word the encoder writes, one lemma per field and format (R81 to R84).
-/

namespace Sys2Proof

@[simp] theorem opField_formatZ (op : BitVec 4) : opField (formatZ op) = op := by
  ext i hi
  simp only [opField, formatZ, BitVec.getElem_extractLsb', BitVec.getLsbD_append]
  rw [if_neg (by omega), if_neg (by omega), BitVec.getLsbD_eq_getElem (by omega)]
  congr 1; omega

@[simp] theorem opField_formatC (op : BitVec 4) (r g b : Byte) :
    opField (formatC op r g b) = op := by
  ext i hi
  simp only [opField, formatC, BitVec.getElem_extractLsb', BitVec.getLsbD_append]
  rw [if_neg (by omega), if_neg (by omega), if_neg (by omega), if_neg (by omega),
    BitVec.getLsbD_eq_getElem (by omega)]
  congr 1; omega

@[simp] theorem opField_formatN (op : BitVec 4) (n : Byte) : opField (formatN op n) = op := by
  ext i hi
  simp only [opField, formatN, BitVec.getElem_extractLsb', BitVec.getLsbD_append]
  rw [if_neg (by omega), if_neg (by omega), if_neg (by omega),
    BitVec.getLsbD_eq_getElem (by omega)]
  congr 1; omega

@[simp] theorem rsvField_formatZ (op : BitVec 4) : rsvField (formatZ op) = 0#4 := by
  ext i hi
  simp only [rsvField, formatZ, BitVec.getElem_extractLsb', BitVec.getLsbD_append]
  rw [if_neg (by omega), if_pos (by omega)]
  simp

@[simp] theorem rsvField_formatC (op : BitVec 4) (r g b : Byte) :
    rsvField (formatC op r g b) = 0#4 := by
  ext i hi
  simp only [rsvField, formatC, BitVec.getElem_extractLsb', BitVec.getLsbD_append]
  rw [if_neg (by omega), if_neg (by omega), if_neg (by omega), if_pos (by omega)]
  simp

@[simp] theorem rsvField_formatN (op : BitVec 4) (n : Byte) : rsvField (formatN op n) = 0#4 := by
  ext i hi
  simp only [rsvField, formatN, BitVec.getElem_extractLsb', BitVec.getLsbD_append]
  rw [if_neg (by omega), if_neg (by omega), if_pos (by omega)]
  simp

@[simp] theorem argField_formatZ (op : BitVec 4) : argField (formatZ op) = 0#24 := by
  ext i hi
  simp only [argField, formatZ, BitVec.getElem_extractLsb', BitVec.getLsbD_append]
  rw [if_pos (by omega)]
  simp

@[simp] theorem highArgField_formatN (op : BitVec 4) (n : Byte) :
    highArgField (formatN op n) = 0#16 := by
  ext i hi
  simp only [highArgField, formatN, BitVec.getElem_extractLsb', BitVec.getLsbD_append]
  rw [if_neg (by omega), if_pos (by omega)]
  simp

end Sys2Proof
end

