-- ==== Sys2Proof/Laws/PerInstr.lean ====
section
/-!
SUPPORT. The statements made of every command as syntax, one lemma per constructor.
-/

namespace Sys2Proof.Laws.EncodesLegal

/-- The word of a command is legal by the clauses of R88. -/
def Statement (i : Instr) : Prop := legalWord (encode i) = true

theorem clr : Statement .clr := by
  simp [Statement, encode, legalWord, operandLegal, formatOf]

theorem quant (r g b : Byte) : Statement (.quant r g b) := by
  simp [Statement, encode, legalWord, operandLegal, formatOf]

theorem pix (r g b : Byte) : Statement (.pix r g b) := by
  simp [Statement, encode, legalWord, operandLegal, formatOf]

theorem wrpal : Statement .wrpal := by
  simp [Statement, encode, legalWord, operandLegal, formatOf]

theorem encode : Statement .encode := by
  simp [Statement, Sys2Proof.encode, legalWord, operandLegal, formatOf]

theorem rdreg (n : Byte) : Statement (.rdreg n) := by
  simp [Statement, Sys2Proof.encode, legalWord, operandLegal, formatOf]

theorem rdpal (k : Byte) : Statement (.rdpal k) := by
  simp [Statement, Sys2Proof.encode, legalWord, operandLegal, formatOf]

theorem rdidx (a : Byte) : Statement (.rdidx a) := by
  simp [Statement, Sys2Proof.encode, legalWord, operandLegal, formatOf]

end Sys2Proof.Laws.EncodesLegal
end

