-- ==== Sys2Proof/Tests/Slice0.lean ====
section
/-!
SUPPORT. Tests of the model, their expected results from spec/30_encoding.md section 6 and
spec/95_test_vectors.md, and for every obligation with hypotheses a witness that meets them.
-/

namespace Sys2Proof.Tests

open Sys2Proof Sys2Proof.Machine

set_option Elab.async false

/-- The outcome is a next state with the property. -/
def nextIs (o : Host.Outcome State Fault Refusal) (p : State → Bool) : Bool :=
  match o with
  | .next t => p t
  | _ => false

theorem next_of_nextIs {o : Host.Outcome State Fault Refusal} {p : State → Bool}
    (h : nextIs o p = true) : ∃ t, o = .next t ∧ p t = true := by
  unfold nextIs at h
  split at h
  · exact ⟨_, rfl, h⟩
  · simp at h

/-- `ENCODE` on a whole image with an accepting sink, by the lemmas of Sys2Proof/Laws: the test need
not run the scratch memory. -/
theorem encode_accepted {s : State} {f : Nat → Byte} (he : s.err = 0#3) (hp : s.plen ≠ 0#8)
    (hw : s.wptr = 256#9) (hf : ∀ a < 256, s.idx.read a = some (f a))
    (ha : s.sinkAnswer = .acceptAll) :
    ∃ t, exec .encode s = .next t ∧ t.err = s.err ∧ t.plen = s.plen ∧ t.edone = true ∧
      t.pdone = s.pdone ∧ t.responses = s.responses ++ [128#32] ∧
      t.sinkS = s.sinkS ++ (List.range 4).flatMap (tileStream ((List.range 256).map f)) := by
  obtain ⟨m, -, h⟩ := execEncode_eq he hp hw (State.frame_of_read hf)
  have hput := putBytes_accepted .S ((List.range 4).flatMap (tileStream ((List.range 256).map f))) 0 s
    (by simp [ha, SinkAnswer.toByte]) (by simp [ha])
  rw [hput] at h
  exact ⟨_, h, by simp, by simp, by simp, by simp, by simp [responseWord_ok], by simp⟩

/-- The same where the sink fails byte `j`. -/
theorem encode_failed {s : State} {f : Nat → Byte} {j : Nat} (he : s.err = 0#3) (hp : s.plen ≠ 0#8)
    (hw : s.wptr = 256#9) (hf : ∀ a < 256, s.idx.read a = some (f a)) (hj : j < 128)
    (ha : s.sinkAnswer = .failAt j) :
    ∃ t, exec .encode s = .next t ∧ t.err = 4#3 ∧ t.edone = s.edone ∧
      t.responses = s.responses ++ [0x00010004#32] ∧
      t.sinkS = s.sinkS ++
        ((List.range 4).flatMap (tileStream ((List.range 256).map f))).take j := by
  obtain ⟨m, -, h⟩ := execEncode_eq he hp hw (State.frame_of_read hf)
  have hlen : ((List.range 4).flatMap (tileStream ((List.range 256).map f))).length = 128 := by
    simp [List.length_flatMap, tileStream_length]
  have hput := putBytes_stopped .S ((List.range 4).flatMap (tileStream ((List.range 256).map f))) 0 j s
    (by omega) (fun k hk => by simp [ha, SinkAnswer.toByte]; omega) (by simp [ha, SinkAnswer.toByte])
  rw [hput] at h
  simp only [Nat.zero_add, ha, SinkAnswer.toByte, if_true] at h
  exact ⟨_, h, by simp [he, ErrKind.code], by simp, by simp [responseWord, Status.code, ErrKind.code],
    by simp⟩

/-! ### States -/

/-- Program P1 after its pixels: one colour, a whole frame of index 1. -/
def oneColour : State :=
  { State.reset with
    plen := 1#8, wptr := 256#9, pal := [(0, 0x1999#16)],
    idx := (List.range 256).map fun a => (a, 1#8) }

/-- Program P7 after its pixels: pixel `n` has index `(n mod 15) + 1`. -/
def fifteenColours : State :=
  { State.reset with
    plen := 15#8, wptr := 256#9, pal := (List.range 15).map fun k => (k, BitVec.ofNat 16 k),
    idx := (List.range 256).map fun a => (a, BitVec.ofNat 8 (a % 15 + 1)) }

/-- Program P4 after its pixels: 100 of red, 156 of green. -/
def twoColours : State :=
  { State.reset with
    plen := 2#8, wptr := 256#9, pal := [(0, 0x001F#16), (1, 0x03E0#16)],
    idx := (List.range 256).map fun a => (a, if a < 100 then 1#8 else 2#8) }

/-- Program P3 after its pixel `n - 1`: `n` distinct colours, colour `k` at position `k`. -/
def manyColours (n : Nat) : State :=
  { State.reset with
    plen := BitVec.ofNat 8 n, wptr := BitVec.ofNat 9 n,
    pal := (List.range n).map fun k => (k, BitVec.ofNat 16 k),
    idx := (List.range n).map fun a => (a, BitVec.ofNat 8 (a + 1)) }

/-- Two red pixels, the next command a third. -/
def twoRed : State :=
  { State.reset with
    plen := 1#8, wptr := 2#9, pal := [(0, 0x001F#16)], idx := [(0, 1#8), (1, 1#8)],
    inbox := [.command 0x30FF0000#32 .acceptAll] }

/-- The host's next action, from reset. -/
def asks (e : HostEvent) : State := { State.reset with inbox := [e] }

/-! ### Well-formed words: each clause of R88 refuses one -/

theorem test_illegal_op_zero : legalWord 0x00000000#32 = false := by decide
theorem test_illegal_op_nine : legalWord 0x90000000#32 = false := by decide
theorem test_illegal_rsv : legalWord 0x31FF0000#32 = false := by decide
theorem test_illegal_format_Z : legalWord 0x50000001#32 = false := by decide
theorem test_illegal_format_N : legalWord 0x60000100#32 = false := by decide
theorem test_legal_pix : legalWord 0x30C86432#32 = true := by decide

/-! ### Decoding: a word of every command, bit by bit from R82 to R86 -/

theorem test_decode_clr :
    decode 0b00010000000000000000000000000000#32 = .ok .clr := by decide
theorem test_decode_quant :
    decode 0b00100000000010000001000000011000#32 = .ok (.quant 8#8 16#8 24#8) := by decide
theorem test_decode_pix :
    decode 0b00110000110010000110010000110010#32 = .ok (.pix 200#8 100#8 50#8) := by decide
theorem test_decode_wrpal :
    decode 0b01000000000000000000000000000000#32 = .ok .wrpal := by decide
theorem test_decode_encode :
    decode 0b01010000000000000000000000000000#32 = .ok .encode := by decide
theorem test_decode_rdreg :
    decode 0b01100000000000000000000000000001#32 = .ok (.rdreg 1#8) := by decide
theorem test_decode_rdpal :
    decode 0b01110000000000000000000000000011#32 = .ok (.rdpal 3#8) := by decide
theorem test_decode_rdidx :
    decode 0b10000000000000000000000011111111#32 = .ok (.rdidx 255#8) := by decide
theorem test_decode_clr_with_operand_bits :
    decode 0b00010000100000000000000000000000#32 = .error .operandBits := by decide
theorem test_decode_table_word :
    decodeTableWord 32 0x20081018 = some (.quant 8#8 16#8 24#8) := by decide

/-! ### One step each (spec/95_test_vectors.md) -/

/-- Section 2.1 and R112's example. -/
theorem test_quant : nextIs (exec (.quant 8#8 16#8 24#8) State.reset)
    (fun t => t.qout == 0x0C41#16 && t.responses == [0x00000C41#32]) = true := by decide

/-- S2: the low three bits of every channel are dropped. -/
theorem test_quant_truncates : nextIs (exec (.quant 200#8 100#8 50#8) State.reset)
    (fun t => t.qout == 0x1999#16) = true := by decide

/-- Program P1's first pixel. -/
theorem test_pix_first : nextIs (exec (.pix 200#8 100#8 50#8) State.reset)
    (fun t => t.plen == 1#8 && t.wptr == 1#9 && t.pal == [(0, 0x1999#16)] && t.idx == [(0, 1#8)]
      && t.responses == [0x00000001#32]) = true := by decide

/-- The 256th distinct colour of P3. -/
theorem test_pix_capacity : nextIs (exec (.pix 248#8 56#8 0#8) (manyColours 255))
    (fun t => t.err == 1#3 && t.plen == 255#8 && t.wptr == 255#9 && t.idx == (manyColours 255).idx
      && t.responses == [0x00010001#32]) = true := by decide +kernel

/-- Program P4's palette stream. -/
theorem test_wrpal : nextIs (exec .wrpal twoColours)
    (fun t => t.sinkP == [0xFF#8, 0xFF#8, 0x1F#8, 0x00#8, 0xE0#8, 0x03#8] && t.pdone
      && t.responses == [0x00000006#32]) = true := by decide +kernel

/-- Section 2.4: sink `P` fails byte 3 of the P1 image. -/
theorem test_wrpal_fails : nextIs (exec .wrpal { oneColour with sinkAnswer := .failAt 3 })
    (fun t => t.sinkP == [0xFF#8, 0xFF#8, 0x99#8] && t.err == 4#3 && !t.pdone
      && t.status == 3#16 && t.responses == [0x00010004#32]) = true := by decide +kernel

/-- V-M, all four bitplanes busy: tiles 0 to 3. -/
theorem test_encode : ∃ t, exec .encode fifteenColours = .next t ∧ t.edone = true ∧
    t.responses = [0x00000080#32] ∧
    t.sinkS.map BitVec.toNat =
        [0xAA, 0x66, 0x55, 0xCC, 0xAA, 0x99, 0x55, 0x33, 0xAA, 0x66, 0x55, 0xCC, 0xAA, 0x99, 0x55, 0x33,
         0x1E, 0x01, 0x3C, 0x03, 0x78, 0x07, 0xF0, 0x0F, 0xE1, 0x1F, 0xC3, 0x3F, 0x87, 0x7F, 0x0F, 0xFF] ++
        [0xAB, 0x66, 0x56, 0xCD, 0xAD, 0x9B, 0x5A, 0x36, 0xB5, 0x6C, 0x6A, 0xD9, 0xD5, 0xB3, 0xAA, 0x66,
         0x1E, 0xFE, 0x3C, 0xFC, 0x78, 0xF8, 0xF1, 0xF0, 0xE3, 0xE0, 0xC7, 0xC0, 0x8F, 0x80, 0x1E, 0x01] ++
        [0xAB, 0x66, 0x56, 0xCD, 0xAD, 0x9B, 0x5A, 0x36, 0xB5, 0x6C, 0x6A, 0xD9, 0xD5, 0xB3, 0xAA, 0x66,
         0x1E, 0xFE, 0x3C, 0xFC, 0x78, 0xF8, 0xF1, 0xF0, 0xE3, 0xE0, 0xC7, 0xC0, 0x8F, 0x80, 0x1E, 0x01] ++
        [0x55, 0xCC, 0xAA, 0x99, 0x55, 0x33, 0xAA, 0x66, 0x55, 0xCC, 0xAA, 0x99, 0x55, 0x33, 0xAB, 0x66,
         0x3C, 0x03, 0x78, 0x07, 0xF0, 0x0F, 0xE1, 0x1F, 0xC3, 0x3F, 0x87, 0x7F, 0x0F, 0xFF, 0x1E, 0xFE] := by
  obtain ⟨t, h, -, -, h1, -, h2, h3⟩ := encode_accepted (s := fifteenColours)
    (f := fun a => BitVec.ofNat 8 (a % 15 + 1)) rfl (by decide) rfl
    (fun _ => Memory.read_table (fun a => BitVec.ofNat 8 (a % 15 + 1))) rfl
  exact ⟨t, h, h1, h2, by rw [h3]; decide +kernel⟩

/-- V-F: sink `S` fails byte 40 of the P1 image. -/
theorem test_encode_fails : ∃ t,
    exec .encode { oneColour with sinkAnswer := .failAt 40 } = .next t ∧ t.err = 4#3 ∧
    t.edone = false ∧ t.responses = [0x00010004#32] ∧
    t.sinkS.map BitVec.toNat =
      [0xFF, 0, 0xFF, 0, 0xFF, 0, 0xFF, 0, 0xFF, 0, 0xFF, 0, 0xFF, 0, 0xFF, 0] ++
      [0, 0, 0, 0, 0, 0, 0, 0, 0, 0, 0, 0, 0, 0, 0, 0] ++
      [0xFF, 0, 0xFF, 0, 0xFF, 0, 0xFF, 0] := by
  obtain ⟨t, h, h0, h1, h2, h3⟩ := encode_failed
    (s := { oneColour with sinkAnswer := .failAt 40 }) (f := fun _ => 1#8) rfl (by decide) rfl
    (fun _ => Memory.read_table (fun _ => 1#8)) (by decide) rfl
  exact ⟨t, h, h0, h1, h2, by rw [h3]; decide +kernel⟩

/-- Section 2.5: `CLR` after a whole image, then `STATUS` reads 0. -/
theorem test_clr : nextIs (exec .clr { oneColour with pdone := true, err := 5#3, sinkP := [1#8] })
    (fun t => t.err == 0#3 && t.status == 0#16 && t.plen == 0#8 && t.idx == [] && t.sinkP == [1#8]
      && t.responses == [0#32]) = true := by decide +kernel

/-- Program P6: `ERRF`, `FULL`, `PDONE`, not `EDONE`. -/
theorem test_rdreg_status : nextIs (exec (.rdreg 0#8) { oneColour with pdone := true, err := 4#3 })
    (fun t => t.responses == [0x00000007#32] && t.err == 4#3) = true := by decide +kernel

/-- Section 2.5: `RDREG 5` names no register. -/
theorem test_rdreg_none : nextIs (exec (.rdreg 5#8) State.reset)
    (fun t => t.responses == [0x00010005#32] && t.err == 5#3) = true := by decide

/-- R182's example. -/
theorem test_rdpal : nextIs (exec (.rdpal 1#8) twoColours)
    (fun t => t.responses == [0x000003E0#32]) = true := by decide +kernel

/-- Section 2.5: position 255 is never written. -/
theorem test_rdpal_unwritten : nextIs (exec (.rdpal 255#8) (manyColours 255))
    (fun t => t.responses == [0x00010005#32]) = true := by decide +kernel

/-- Program P3: `RDIDX 254`. -/
theorem test_rdidx : nextIs (exec (.rdidx 254#8) (manyColours 255))
    (fun t => t.responses == [0x000000FF#32]) = true := by decide +kernel

/-- Program P3: `RDIDX 255`, the first error stays. -/
theorem test_rdidx_unwritten : nextIs (exec (.rdidx 255#8) { manyColours 255 with err := 1#3 })
    (fun t => t.responses == [0x00010005#32] && t.err == 1#3) = true := by decide +kernel

/-- Section 2.6: an illegal word from reset; `CLR` with operand bits clears nothing. -/
theorem test_step_illegal : nextIs (step (State.reset.withFetchWord 32 0x10800000))
    (fun t => t.err == 5#3 && t.responses == [0x00010005#32] && t.inbox == []) = true := by decide

/-- A word placed by the host is the next command run. -/
theorem test_step_fetches : nextIs (step (State.reset.withFetchWord 32 0x30FF0000))
    (fun t => t.plen == 1#8 && t.pal == [(0, 0x001F#16)] && t.inbox == []) = true := by decide

/-! ### Witnesses: concrete states and operands that meet each obligation's hypotheses -/

theorem witness_EncodeUndoesDecode : decode 0x80000000#32 = .ok (.rdidx 0#8) := by decide

theorem witness_NoWordMatchesTwoRows :
    (∃ row ∈ opcodeRows, 0x30C86432#32 &&& row.mask = row.pattern) ∧
    (∀ row ∈ opcodeRows, 0xFFFFFFFF#32 &&& row.mask ≠ row.pattern) := by decide

theorem witness_IllegalWordsFault :
    (asks (.command 0x00000000#32 .acceptAll)).inbox = [.command 0x00000000#32 .acceptAll] ∧
    decode 0x00000000#32 = .error .reservedOpcode := by decide

theorem witness_StepRunsTheDecodedCommand :
    twoRed.inbox = [.command 0x30FF0000#32 .acceptAll] ∧
    decode 0x30FF0000#32 = .ok (.pix 255#8 0#8 0#8) := by decide

theorem witness_StepWithoutCommand :
    State.reset.inbox = [] ∧ (asks (.tooEarly 0#32)).inbox = [.tooEarly 0#32] := by decide

theorem witness_ResetAndClrAreEquivalent : (asks .reset).inbox = [.reset] := by decide

/-- Both ends: a response, and a reset before the response of a `WRPAL`. -/
theorem witness_EveryWordIsAnsweredOnce :
    (∃ t, step twoRed = .next t) ∧
    nextIs (step { oneColour with inbox := [.command 0x40000000#32 (.resetAt 4)] })
      (fun t => t.responses == [] && t.sinkP.length == 4) = true :=
  ⟨⟨_, rfl⟩, by decide +kernel⟩

theorem witness_LookupIsLeastMatch :
    lookup 5#16 [3#16, 5#16, 5#16] = some 1 ∧ lookup 4#16 [3#16, 5#16] = none ∧
    [3#16, 5#16].Nodup ∧ [3#16, 5#16][1] = 5#16 := by decide

theorem witness_PixOfSeenColour :
    twoRed.err = 0#3 ∧ twoRed.wptr.toNat < 256 ∧
    (∀ j < twoRed.plen.toNat, twoRed.pal.read j = some 0x001F#16) ∧
    0 < twoRed.plen.toNat ∧ quant 255#8 0#8 0#8 = 0x001F#16 := by decide

theorem witness_PixOfNewColour :
    twoRed.err = 0#3 ∧ twoRed.wptr.toNat < 256 ∧ twoRed.plen.toNat < 255 ∧
    (∀ j < twoRed.plen.toNat, twoRed.pal.read j = some 0x001F#16) ∧
    quant 0#8 255#8 0#8 ≠ 0x001F#16 := by decide

theorem witness_PixOnFullBuffer : oneColour.err = 0#3 ∧ oneColour.wptr = 256#9 := by decide +kernel

/-- A new colour on a full palette, the first and the last of its colours, the 255th colour. -/
theorem witness_PixCapacity :
    ((manyColours 255).err = 0#3 ∧ (manyColours 255).wptr.toNat < 256 ∧
      (∀ j < (manyColours 255).plen.toNat, (manyColours 255).pal.read j = some (BitVec.ofNat 16 j)) ∧
      (manyColours 255).plen = 255#8 ∧ ∀ j < 255, BitVec.ofNat 16 j ≠ quant 248#8 56#8 0#8) ∧
    BitVec.ofNat 16 0 = quant 0#8 0#8 0#8 ∧
    (BitVec.ofNat 16 254 = quant 240#8 56#8 0#8 ∧
      ∀ j < 254, BitVec.ofNat 16 j ≠ quant 240#8 56#8 0#8) ∧
    ((manyColours 254).err = 0#3 ∧ (manyColours 254).wptr.toNat < 256 ∧
      (∀ j < (manyColours 254).plen.toNat, (manyColours 254).pal.read j = some (BitVec.ofNat 16 j)) ∧
      (manyColours 254).plen = 254#8) := by
  have hpal : ∀ n j : Nat, n < 256 → j < (manyColours n).plen.toNat →
      (manyColours n).pal.read j = some (BitVec.ofNat 16 j) := fun n j hn hj =>
    Memory.read_table (fun k => BitVec.ofNat 16 k)
      (by simpa [manyColours, Nat.mod_eq_of_lt hn] using hj)
  exact ⟨⟨rfl, by decide, fun j hj => hpal 255 j (by decide) hj, rfl, by decide +kernel⟩, by decide,
    ⟨by decide, by decide +kernel⟩, rfl, by decide, fun j hj => hpal 254 j (by decide) hj, rfl⟩

/-- An accepted pixel on a palette that holds its colour, and the first pixel of an image. -/
theorem witness_PixIndexNamesItsColour :
    nextIs (exec (.pix 255#8 0#8 0#8) twoRed) (fun t => t.wptr != twoRed.wptr) = true ∧
    State.reset.EmptyImage := by decide

/-- A pixel that appends, one that does not, one that is refused. -/
theorem witness_PixFrame :
    nextIs (exec (.pix 0#8 255#8 0#8) twoRed) (fun t => t.plen != twoRed.plen) = true ∧
    nextIs (exec (.pix 255#8 0#8 0#8) twoRed) (fun t => t.wptr != twoRed.wptr) = true ∧
    nextIs (exec (.pix 0#8 0#8 0#8) { twoRed with err := 3#3 }) (fun t => t.wptr == twoRed.wptr) =
      true := by decide

theorem witness_PixIsOneIndexerRound :
    State.reset.err = 0#3 ∧ State.reset.plen.toNat = ([] : List Colour).length ∧
    State.reset.wptr.toNat = ([] : List Byte).length ∧
    (∀ k : Nat, State.reset.pal.read k = ([] : List Colour)[k]?) ∧
    (∀ a : Nat, State.reset.idx.read a = ([] : List Byte)[a]?) ∧
    (indexerRound ([], []) (255#8, 0#8, 0#8)).1.length ≤ 255 :=
  ⟨rfl, rfl, rfl, fun _ => rfl, fun _ => rfl, by decide⟩

/-- The longest pixel list, with the largest palette. -/
theorem witness_PixelsBuildPaletteAndIndices :
    State.reset.EmptyImage ∧
    ((List.range 255).map (fun n =>
      (BitVec.ofNat 8 (8 * (n % 32)), BitVec.ofNat 8 (8 * (n / 32)), 0#8)) ++
        [(0#8, 0#8, 0#8)]).length ≤ 256 ∧
    (indexer ((List.range 255).map (fun n =>
      (BitVec.ofNat 8 (8 * (n % 32)), BitVec.ofNat 8 (8 * (n / 32)), 0#8)) ++
        [(0#8, 0#8, 0#8)])).1.length = 255 := by decide +kernel

theorem witness_RefusedWhileErrorLatched :
    ({ twoRed with err := 1#3 } : State).err ≠ 0#3 := by decide

theorem witness_ReadsRunWhileErrorLatched :
    nextIs (exec (.rdpal 0#8) { twoRed with err := 3#3 }) (fun _ => true) = true ∧
    nextIs (exec (.rdpal 1#8) { twoRed with err := 3#3 }) (fun _ => true) = true ∧
    nextIs (exec (.rdidx 1#8) { twoRed with err := 3#3 }) (fun _ => true) = true ∧
    nextIs (exec (.rdreg 2#8) { twoRed with err := 3#3 }) (fun _ => true) = true ∧
    nextIs (exec (.quant 1#8 2#8 3#8) { twoRed with err := 3#3 }) (fun _ => true) = true ∧
    nextIs (exec .clr { twoRed with err := 3#3 }) (fun _ => true) = true := by decide

theorem witness_FirstErrorStaysUntilClr :
    nextIs (exec (.rdreg 9#8) { twoRed with err := 3#3 }) (fun _ => true) = true := by decide

/-- An error inside `ENCODE` and one of a read. -/
theorem witness_ErrorsArePrecise :
    nextIs (exec (.rdpal 1#8) twoRed) (fun t => t.responses == [0#14 ++ 1#2 ++ 5#16]) = true ∧
    ∃ t, exec .encode { oneColour with sinkAnswer := .failAt 0 } = .next t ∧
      t.responses = [0#14 ++ 1#2 ++ 4#16] := by
  obtain ⟨t, h, -, -, h2, -⟩ := encode_failed
    (s := { oneColour with sinkAnswer := .failAt 0 }) (f := fun _ => 1#8) rfl (by decide) rfl
    (fun _ => Memory.read_table (fun _ => 1#8)) (by decide) rfl
  exact ⟨by decide, t, h, h2⟩

theorem witness_OutputNeedsAWholeImage :
    State.reset.err = 0#3 ∧ State.reset.plen = 0#8 ∧
    twoRed.err = 0#3 ∧ twoRed.plen ≠ 0#8 ∧ twoRed.wptr ≠ 256#9 ∧
    (manyColours 255).plen ≠ 0#8 ∧ (manyColours 255).wptr ≠ 256#9 := by decide +kernel

/-- The state hypotheses of the `WRPAL` statements, and each answer under which the stream of four
bytes is accepted whole, at its bound. -/
theorem witness_WrpalPutsThePaletteStream :
    oneColour.err = 0#3 ∧ oneColour.plen ≠ 0#8 ∧ oneColour.wptr = 256#9 ∧
    (∀ k < oneColour.plen.toNat, oneColour.pal.read k = some 0x1999#16) ∧
    (∀ ans ∈ [SinkAnswer.acceptAll, .failAt 4, .silentAt 4, .resetAt 5],
      ans.completes (2 + 2 * oneColour.plen.toNat) = true) := by decide +kernel

theorem witness_WrpalSinkFailure :
    ∀ j ∈ [0, 3],
      let s : State := { oneColour with sinkAnswer := .failAt j }
      s.err = 0#3 ∧ s.plen ≠ 0#8 ∧ s.wptr = 256#9 ∧
      (∀ k < s.plen.toNat, s.pal.read k = some 0x1999#16) ∧
      s.sinkAnswer = .failAt j ∧ j < 2 + 2 * s.plen.toNat := by decide +kernel

theorem witness_WrpalStuckOrAbandoned :
    (∀ j ∈ [0, 3],
      let s : State := { oneColour with sinkAnswer := .silentAt j }
      s.err = 0#3 ∧ s.plen ≠ 0#8 ∧ s.wptr = 256#9 ∧
      (∀ k < s.plen.toNat, s.pal.read k = some 0x1999#16) ∧
      s.sinkAnswer = .silentAt j ∧ j < 2 + 2 * s.plen.toNat) ∧
    (∀ j ∈ [0, 4],
      let s : State := { oneColour with sinkAnswer := .resetAt j }
      s.err = 0#3 ∧ s.plen ≠ 0#8 ∧ s.wptr = 256#9 ∧
      (∀ k < s.plen.toNat, s.pal.read k = some 0x1999#16) ∧
      s.sinkAnswer = .resetAt j ∧ j ≤ 2 + 2 * s.plen.toNat) := by decide +kernel

/-- The state hypotheses of the `ENCODE` statements, and each answer under which the stream is
accepted whole, at its bound. -/
theorem witness_EncodePutsTheClosedForm :
    fifteenColours.err = 0#3 ∧ fifteenColours.plen ≠ 0#8 ∧ fifteenColours.wptr = 256#9 ∧
    (∀ a < 256, fifteenColours.idx.read a = some (BitVec.ofNat 8 (a % 15 + 1))) ∧
    (∀ ans ∈ [SinkAnswer.acceptAll, .failAt 128, .silentAt 128, .resetAt 129],
      ans.completes 128 = true) :=
  ⟨rfl, by decide, rfl, fun _ => Memory.read_table (fun a => BitVec.ofNat 8 (a % 15 + 1)), by decide⟩

theorem witness_EncodeSinkFailure :
    ∀ j ∈ [0, 127],
      let s : State := { oneColour with sinkAnswer := .failAt j }
      s.err = 0#3 ∧ s.plen ≠ 0#8 ∧ s.wptr = 256#9 ∧
      (∀ a < 256, s.idx.read a = some 1#8) ∧ s.sinkAnswer = .failAt j ∧ j < 128 := by
  intro j hj
  exact ⟨rfl, show 1#8 ≠ 0#8 by decide, rfl, fun _ => Memory.read_table (fun _ => 1#8), rfl, by revert j; decide⟩

theorem witness_EncodeStuckOrAbandoned :
    (∀ j ∈ [0, 127],
      let s : State := { oneColour with sinkAnswer := .silentAt j }
      s.err = 0#3 ∧ s.plen ≠ 0#8 ∧ s.wptr = 256#9 ∧
      (∀ a < 256, s.idx.read a = some 1#8) ∧ s.sinkAnswer = .silentAt j ∧ j < 128) ∧
    (∀ j ∈ [0, 128],
      let s : State := { oneColour with sinkAnswer := .resetAt j }
      s.err = 0#3 ∧ s.plen ≠ 0#8 ∧ s.wptr = 256#9 ∧
      (∀ a < 256, s.idx.read a = some 1#8) ∧ s.sinkAnswer = .resetAt j ∧ j ≤ 128) := by
  refine ⟨fun j hj => ?_, fun j hj => ?_⟩ <;>
  exact ⟨rfl, show 1#8 ≠ 0#8 by decide, rfl, fun _ => Memory.read_table (fun _ => 1#8), rfl, by revert j; decide⟩

theorem witness_SpriteStreamUnpacks :
    fifteenColours.err = 0#3 ∧
    (∀ a < 256, fifteenColours.idx.read a = some (BitVec.ofNat 8 (a % 15 + 1))) ∧
    ∃ t, exec .encode fifteenColours = .next t ∧
      t.responses = fifteenColours.responses ++ [128#32] := by
  have hf : ∀ a < 256, fifteenColours.idx.read a = some (BitVec.ofNat 8 (a % 15 + 1)) :=
    fun _ => Memory.read_table (fun a => BitVec.ofNat 8 (a % 15 + 1))
  obtain ⟨t, h, -, -, -, -, h2, -⟩ := encode_accepted rfl (by decide) rfl hf rfl
  exact ⟨rfl, hf, t, h, h2⟩

/-- Index 16 everywhere against index 0 everywhere. -/
theorem witness_IndicesAbove15AreTruncated :
    let s : State := { oneColour with idx := (List.range 256).map fun a => (a, 16#8) }
    s.err = 0#3 ∧ s.plen ≠ 0#8 ∧ s.wptr = 256#9 ∧ s.sinkAnswer.completes 128 = true ∧
    (∀ a < 256, s.idx.read a = some 16#8) ∧
    (∀ a < 256, Memory.read ((List.range 256).map fun a => (a, 0#8)) a = some 0#8) ∧
    16#8 &&& 0x0F#8 = 0#8 &&& 0x0F#8 :=
  ⟨rfl, by decide, rfl, rfl, fun _ => Memory.read_table (fun _ => 16#8),
    fun _ => Memory.read_table (fun _ => 0#8), by decide⟩

theorem witness_UniformImageStream :
    oneColour.err = 0#3 ∧ oneColour.plen ≠ 0#8 ∧ oneColour.wptr = 256#9 ∧
    (∀ a < 256, oneColour.idx.read a = some 1#8) ∧ oneColour.sinkAnswer.completes 128 = true :=
  ⟨rfl, by decide, rfl, fun _ => Memory.read_table (fun _ => 1#8), rfl⟩

theorem witness_EncodeRepeats :
    ∃ t, exec .encode oneColour = .next t ∧ t.err = 0#3 ∧ t.plen ≠ 0#8 := by
  obtain ⟨t, h, h1, h2, -⟩ := encode_accepted (s := oneColour) (f := fun _ => 1#8) rfl
    (by decide) rfl
    (fun _ => Memory.read_table (fun _ => 1#8)) rfl
  exact ⟨t, h, h1, by rw [h2]; decide +kernel⟩

theorem witness_WrpalRepeats :
    nextIs (exec .wrpal oneColour) (fun t => t.err == 0#3 && t.plen != 0#8) = true := by
  decide +kernel

/-- The last register number that names one and the first and last that do not. -/
theorem witness_RdregReturnsTheRegister :
    (4#8).toNat = 4 ∧ 4 < (5#8).toNat ∧ 4 < (255#8).toNat := by decide

/-- The last written entry and the first unwritten one. -/
theorem witness_RdpalReturnsTheColour :
    ((0#8).toNat < twoRed.plen.toNat ∧ twoRed.pal.read (0#8).toNat = some 0x001F#16) ∧
    twoRed.plen.toNat ≤ (1#8).toNat := by decide

/-- The last written entry and the first unwritten one. -/
theorem witness_RdidxReturnsTheIndex :
    ((1#8).toNat < twoRed.wptr.toNat ∧ twoRed.idx.read (1#8).toNat = some 1#8) ∧
    twoRed.wptr.toNat ≤ (2#8).toNat := by decide

theorem witness_ReadOfAnUnwrittenEntryStops :
    let s : State := { State.reset with plen := 1#8, wptr := 1#9 }
    ((0#8).toNat < s.plen.toNat ∧ s.pal.read (0#8).toNat = none) ∧
    ((0#8).toNat < s.wptr.toNat ∧ s.idx.read (0#8).toNat = none) := by decide

theorem witness_OnlyPixWritesTheImage :
    nextIs (exec .wrpal oneColour) (fun t => t.pdone) = true ∧
    oneColour.sinkAnswer = .acceptAll := by decide +kernel

theorem witness_EachRegisterHasItsWriters :
    (∃ t, exec .encode { oneColour with pdone := true } = .next t ∧ t.edone = true ∧
      t.pdone = true) ∧ oneColour.sinkAnswer = .acceptAll := by
  obtain ⟨t, h, -, -, h1, h2, -⟩ := encode_accepted (s := { oneColour with pdone := true })
    (f := fun _ => 1#8) rfl (by decide) rfl
    (fun _ => Memory.read_table (fun _ => 1#8)) rfl
  exact ⟨⟨t, h, h1, h2⟩, rfl⟩

theorem witness_SinksOnlyGrow : ∃ t, step twoRed = .next t := ⟨_, rfl⟩

theorem witness_StepKeepsMemoryForm : twoRed.MemoryForm ∧ ∃ t, step twoRed = .next t :=
  ⟨by decide, _, rfl⟩

/-- The invariants hold in the middle of an image. -/
theorem twoRed_inv : twoRed.Inv where
  memory := by decide
  counts := by decide
  written := by decide +kernel
  unique := by decide
  firstSeen := by decide
  valid := by decide +kernel
  used := by decide
  highBit := by
    refine ⟨fun k hk v hv => ?_, by decide⟩
    obtain rfl : k = 0 := Nat.lt_one_iff.mp hk
    obtain rfl : 0x001F#16 = v := Option.some.inj hv
    decide
  done := by decide
  err := by decide

theorem witness_StepKeepsTheInvariants : twoRed.Inv ∧ ∃ t, step twoRed = .next t :=
  ⟨twoRed_inv, _, rfl⟩

theorem witness_AdmittedStepsComplete : twoRed.Inv ∧ twoRed.Admitted = true :=
  ⟨twoRed_inv, by decide⟩

theorem witness_WholeImageSucceeds :
    State.reset.EmptyImage ∧ (List.replicate 256 ((200#8, 100#8, 50#8) : Sample)).length = 256 ∧
    (indexer (List.replicate 256 (200#8, 100#8, 50#8))).1.length ≤ 255 ∧
    State.reset.sinkAnswer = .acceptAll := by decide +kernel

end Sys2Proof.Tests
end

/-! ## The state (10_state.md): writers, the step of a command, `STATUS`, the reset state -/

namespace Sys2Proof.Machine

/-! ### Which command writes which register and sink -/

/-- `t` agrees with `s` in what the output commands, `QUANT` and the host write: everything but `ERR`,
the image and the responses. -/
structure State.SameOutputs (s t : State) : Prop where
  qout : t.qout = s.qout
  pdone : t.pdone = s.pdone
  edone : t.edone = s.edone
  scr : t.scr = s.scr
  sinkP : t.sinkP = s.sinkP
  sinkS : t.sinkS = s.sinkS
  inbox : t.inbox = s.inbox
  sinkAnswer : t.sinkAnswer = s.sinkAnswer

theorem State.sameOutputs_answer (s : State) (st : Status) (v : Colour) :
    s.SameOutputs (s.answer st v) := by
  constructor <;> rfl

theorem State.sameOutputs_latch_answer (s : State) (k : ErrKind) (st : Status) (v : Colour) :
    s.SameOutputs ((s.latch k).answer st v) := by
  constructor <;> rfl

/-- `PIX` writes `ERR`, the image and the response alone. -/
theorem execPix_sameOutputs {r g b : Byte} {s t : State} (h : execPix r g b s = .next t) :
    s.SameOutputs t := by
  rcases execPix_next h with ⟨-, rfl⟩ | ⟨-, -, rfl⟩ | ⟨-, -, rfl⟩ | ⟨-, -, k, -, -, rfl⟩ |
    ⟨-, -, -, -, rfl⟩
  · exact s.sameOutputs_answer ..
  · exact s.sameOutputs_latch_answer ..
  · exact s.sameOutputs_latch_answer ..
  · constructor <;> rfl
  · constructor <;> rfl

/-- A read-out command writes `ERR` and the response alone. -/
theorem execRead_sameOutputs {i : Instr} {s t : State} (h : exec i s = .next t)
    (hi : (∃ n, i = .rdreg n) ∨ (∃ k, i = .rdpal k) ∨ ∃ a, i = .rdidx a) : s.SameOutputs t := by
  rcases execRead_next h hi with ⟨v, rfl⟩ | rfl
  · exact s.sameOutputs_answer ..
  · exact s.sameOutputs_latch_answer ..

/-- What `WRPAL` leaves as it is, and that it never clears `PDONE` unless a reset abandons it. -/
structure State.WrpalFrame (s t : State) : Prop where
  sinkS : t.sinkS = s.sinkS
  inbox : t.inbox = s.inbox
  sinkAnswer : t.sinkAnswer = s.sinkAnswer
  registers : (∀ j, s.sinkAnswer ≠ .resetAt j) →
    t.qout = s.qout ∧ t.edone = s.edone ∧ t.scr = s.scr ∧ (s.pdone = true → t.pdone = true)

theorem State.SameOutputs.wrpalFrame {s t : State} (h : s.SameOutputs t) : s.WrpalFrame t :=
  ⟨h.sinkS, h.inbox, h.sinkAnswer, fun _ => ⟨h.qout, h.edone, h.scr, h.pdone.trans⟩⟩

theorem execWrpal_frame {s t : State} (h : execWrpal s = .next t) : s.WrpalFrame t := by
  rcases execWrpal_next h with ⟨-, rfl⟩ | ⟨-, -, rfl⟩ | ⟨-, -, -, rfl⟩ |
    ⟨-, -, -, pal, pre, -, -, ⟨-, rfl⟩ | rfl | ⟨rfl, j, hj⟩⟩
  · exact (s.sameOutputs_answer ..).wrpalFrame
  · exact (s.sameOutputs_latch_answer ..).wrpalFrame
  · exact (s.sameOutputs_latch_answer ..).wrpalFrame
  · constructor <;> simp
  · constructor <;> simp
  · exact ⟨by simp, by simp, by simp, fun hno => absurd hj (hno j)⟩

/-- What `ENCODE` leaves as it is, and that it never clears `EDONE` unless a reset abandons it. -/
structure State.EncodeFrame (s t : State) : Prop where
  sinkP : t.sinkP = s.sinkP
  inbox : t.inbox = s.inbox
  sinkAnswer : t.sinkAnswer = s.sinkAnswer
  registers : (∀ j, s.sinkAnswer ≠ .resetAt j) →
    t.qout = s.qout ∧ t.pdone = s.pdone ∧ (s.edone = true → t.edone = true)

theorem State.SameOutputs.encodeFrame {s t : State} (h : s.SameOutputs t) : s.EncodeFrame t :=
  ⟨h.sinkP, h.inbox, h.sinkAnswer, fun _ => ⟨h.qout, h.pdone, h.edone.trans⟩⟩

theorem execEncode_frame {s t : State} (h : execEncode s = .next t) : s.EncodeFrame t := by
  rcases execEncode_next h with ⟨-, rfl⟩ | ⟨-, -, rfl⟩ | ⟨-, -, -, rfl⟩ |
    ⟨-, -, -, frame, pre, m, -, -, -, ⟨-, rfl⟩ | rfl | ⟨rfl, j, hj⟩⟩
  · exact (s.sameOutputs_answer ..).encodeFrame
  · exact (s.sameOutputs_latch_answer ..).encodeFrame
  · exact (s.sameOutputs_latch_answer ..).encodeFrame
  · constructor <;> simp
  · constructor <;> simp
  · exact ⟨by simp, by simp, by simp, fun hno => absurd hj (hno j)⟩

theorem execClr_next {s t : State} (h : execClr s = .next t) : t = s.coreReset.answer .ok 0#16 := by
  simpa [execClr, respond_eq, eq_comm] using h

theorem execQuant_next {r g b : Byte} {s t : State} (h : execQuant r g b s = .next t) :
    t = ({ s with qout := quant r g b } : State).answer .ok (quant r g b) := by
  simpa [execQuant, respond_eq, eq_comm] using h

/-- Only four commands write more than `ERR`, the image and the response. -/
theorem exec_sameOutputs {i : Instr} {s t : State} (h : exec i s = .next t) :
    s.SameOutputs t ∨ i = .clr ∨ (∃ r g b, i = .quant r g b) ∨ i = .wrpal ∨ i = .encode := by
  cases i with
  | clr | quant | wrpal | encode => simp
  | pix r g b => exact .inl (execPix_sameOutputs h)
  | rdreg n => exact .inl (execRead_sameOutputs h (.inl ⟨n, rfl⟩))
  | rdpal k => exact .inl (execRead_sameOutputs h (.inr (.inl ⟨k, rfl⟩)))
  | rdidx a => exact .inl (execRead_sameOutputs h (.inr (.inr ⟨a, rfl⟩)))

/-- Settles O49: a command writes no output at all, or it is one of four, whose frames say the rest. -/
theorem eachRegisterHasItsWriters : Obligations.EachRegisterHasItsWriters := by
  intro i s t h
  rcases exec_sameOutputs h with hsame | rfl | ⟨r, g, b, rfl⟩ | rfl | rfl
  · obtain ⟨hqout, hpdone, hedone, hscr, hsinkP, hsinkS, hinbox, hanswer⟩ := hsame
    simp [*]
  · simp [execClr_next h]
  · simp [execQuant_next h]
  · obtain ⟨hsinkS, hinbox, hanswer, hregs⟩ := execWrpal_frame h
    refine ⟨by simp, fun _ => hsinkS, hinbox, hanswer, fun _ hno => ?_⟩
    obtain ⟨hqout, hedone, hscr, hpdone⟩ := hregs hno
    simpa [hqout, hedone, hscr] using hpdone
  · obtain ⟨hsinkP, hinbox, hanswer, hregs⟩ := execEncode_frame h
    refine ⟨fun _ => hsinkP, by simp, hinbox, hanswer, fun _ hno => ?_⟩
    obtain ⟨hqout, hpdone, hedone⟩ := hregs hno
    simpa [hqout, hpdone] using hedone

/-! ### The step of a command word -/

theorem fetch_of_decode {s : State} {w : Word} {ans : SinkAnswer} {rest : List HostEvent} {i : Instr}
    (hs : s.inbox = .command w ans :: rest) (hw : decode w = .ok i) : fetch s = .run i := by
  simp [fetch, hs, hw]

theorem State.consume_of_command {s : State} {w : Word} {ans : SinkAnswer} {rest : List HostEvent}
    (hs : s.inbox = .command w ans :: rest) :
    s.consume = { s with inbox := rest, sinkAnswer := ans } := by
  simp [State.consume, hs]

/-- Settles O7: the fetch finds the command, and consuming its word leaves the state it runs in. -/
theorem stepRunsTheDecodedCommand : Obligations.StepRunsTheDecodedCommand := by
  intro s w ans rest i hs hw
  simp [step, fetch_of_decode hs hw, State.consume_of_command hs]

/-! ### The status view -/

/-- Bit `n` of `STATUS`: the four flags, then zeros (R28). -/
theorem State.status_getLsbD (s : State) (n : Nat) :
    s.status.getLsbD n =
      if n = 0 then s.errf else if n = 1 then s.full else if n = 2 then s.pdone
      else if n = 3 then s.edone else false := by
  change BitVec.getLsbD (w := 12 + 1 + 1 + 1 + 1) (0#12 ++ BitVec.ofBool s.edone ++
    BitVec.ofBool s.pdone ++ BitVec.ofBool s.full ++ BitVec.ofBool s.errf) n = _
  match n with
  | 0 | 1 | 2 | 3 => simp only [BitVec.getLsbD_append]; simp
  | n + 4 => simp only [BitVec.getLsbD_append]; simp

/-- Settles O43, from the value of each bit of the view. -/
theorem statusBits : Obligations.StatusBits := by
  intro s
  simp only [State.status_getLsbD]
  refine ⟨?_, ?_, ?_, ?_, ?_⟩
  · simp [State.errf, bne, beq_eq_decide]
  · simp [State.full, beq_eq_decide]
  · simp
  · simp
  · ext i hi
    rw [BitVec.getElem_extractLsb', State.status_getLsbD]
    simp [show 4 + i ≠ 1 by omega, show 4 + i ≠ 2 by omega, show 4 + i ≠ 3 by omega]

/-! ### The reset state -/

/-- The core's reset state meets the invariants, whatever the host's side holds: there are no
entries, no counts, no error and no completed stream (R41). -/
theorem State.coreReset_inv (s : State) : s.coreReset.Inv where
  memory := ⟨Memory.wf_nil _, Memory.wf_nil _, Memory.wf_nil _⟩
  counts := by simp [State.Counts]
  written := by simp [State.Written, Memory.read]
  unique := by simp [State.PaletteUnique]
  firstSeen := by simp [State.FirstSeen]
  valid := by simp [State.IndexValid]
  used := by simp [State.PaletteUsed]
  highBit := by simp [State.HighBitZero]
  done := by simp [State.DoneMeansWhole]
  err := by simp [State.ErrLegal]

/-- Settles O53: reset is a core reset state (with the host's side empty). -/
theorem resetMeetsTheInvariants : Obligations.ResetMeetsTheInvariants :=
  State.reset.coreReset_inv

end Sys2Proof.Machine

/-! ## The memories (20_memory.md): the canonical form through every step, the stop of an unwritten entry -/

namespace Sys2Proof.Machine

/-! ### Every command keeps the memories' sizes and canonical form -/

/-- Taking the host's next action touches no memory. -/
theorem State.MemoryForm.consume {s : State} (hs : s.MemoryForm) : s.consume.MemoryForm := by
  simpa only [State.MemoryForm, State.consume_pal, State.consume_idx, State.consume_scr] using hs

/-- The one colour `PIX` appends goes below entry 255 and the one index below entry 256. -/
theorem execPix_memoryForm {r g b : Byte} {s t : State} (hs : s.MemoryForm)
    (h : execPix r g b s = .next t) : t.MemoryForm := by
  obtain ⟨hpal, hidx, hscr⟩ := hs
  rcases execPix_next h with ⟨-, rfl⟩ | ⟨-, -, rfl⟩ | ⟨-, -, rfl⟩ | ⟨-, hwptr, k, -, -, rfl⟩ |
    ⟨-, hwptr, hplen, -, rfl⟩
  · exact ⟨hpal, hidx, hscr⟩
  · exact ⟨hpal, hidx, hscr⟩
  · exact ⟨hpal, hidx, hscr⟩
  · exact ⟨hpal, Memory.wf_write _ hidx hwptr, hscr⟩
  · exact ⟨Memory.wf_write _ hpal hplen, Memory.wf_write _ hidx hwptr, hscr⟩

/-- `WRPAL` writes no memory, and a reset that abandons it empties them. -/
theorem execWrpal_memoryForm {s t : State} (hs : s.MemoryForm) (h : execWrpal s = .next t) :
    t.MemoryForm := by
  rcases execWrpal_next h with ⟨-, rfl⟩ | ⟨-, -, rfl⟩ | ⟨-, -, -, rfl⟩ |
    ⟨-, -, -, pal, pre, -, -, ⟨-, rfl⟩ | rfl | ⟨rfl, -⟩⟩
  · exact hs
  · exact hs
  · exact hs
  · exact hs
  · exact hs
  · exact (State.coreReset_inv _).memory

/-- `ENCODE` writes the scratch memory alone, within its 256 cells, and a reset that abandons it
empties the memories. -/
theorem execEncode_memoryForm {s t : State} (hs : s.MemoryForm) (h : execEncode s = .next t) :
    t.MemoryForm := by
  obtain ⟨hpal, hidx, hscr⟩ := hs
  rcases execEncode_next h with ⟨-, rfl⟩ | ⟨-, -, rfl⟩ | ⟨-, -, -, rfl⟩ |
    ⟨-, -, -, frame, pre, m, -, hm, -, ⟨-, rfl⟩ | rfl | ⟨rfl, -⟩⟩
  · exact ⟨hpal, hidx, hscr⟩
  · exact ⟨hpal, hidx, hscr⟩
  · exact ⟨hpal, hidx, hscr⟩
  · exact ⟨hpal, hidx, hm hscr⟩
  · exact ⟨hpal, hidx, hm hscr⟩
  · exact (State.coreReset_inv _).memory

/-- A read-out command writes no memory. -/
theorem execRead_memoryForm {i : Instr} {s t : State} (hs : s.MemoryForm) (h : exec i s = .next t)
    (hi : (∃ n, i = .rdreg n) ∨ (∃ k, i = .rdpal k) ∨ ∃ a, i = .rdidx a) : t.MemoryForm := by
  rcases execRead_next h hi with ⟨v, rfl⟩ | rfl <;> exact hs

theorem exec_memoryForm {i : Instr} {s t : State} (hs : s.MemoryForm) (h : exec i s = .next t) :
    t.MemoryForm := by
  cases i with
  | clr => exact execClr_next h ▸ s.coreReset_inv.memory
  | quant r g b => exact execQuant_next h ▸ hs
  | pix r g b => exact execPix_memoryForm hs h
  | wrpal => exact execWrpal_memoryForm hs h
  | encode => exact execEncode_memoryForm hs h
  | rdreg n => exact execRead_memoryForm hs h (.inl ⟨n, rfl⟩)
  | rdpal k => exact execRead_memoryForm hs h (.inr (.inl ⟨k, rfl⟩))
  | rdidx a => exact execRead_memoryForm hs h (.inr (.inr ⟨a, rfl⟩))

/-- Settles O52: an idle step changes nothing, a command keeps the form, an illegal word writes no
memory, and a reset empties them all. -/
theorem stepKeepsMemoryForm : Obligations.StepKeepsMemoryForm := by
  intro s t hs h
  rcases step_next h with ⟨-, rfl⟩ | ⟨i, -, hexec⟩ | ⟨-, rfl⟩ | ⟨-, rfl⟩
  · exact hs
  · exact exec_memoryForm hs.consume hexec
  · exact hs.consume
  · exact s.consume.coreReset_inv.memory

/-! ### Reading an entry that holds no value -/

theorem readEntry_of_read_none {w : Nat} (sp : Space) {m : Memory w} {a : Nat}
    (h : m.read a = none) : readEntry sp m a = .error (.unwrittenEntry sp a) := by
  simp [readEntry, h]

/-- Settles O47: the entry is claimed, so the command reads it, and it holds no value. -/
theorem readOfAnUnwrittenEntryStops : Obligations.ReadOfAnUnwrittenEntryStops := by
  refine fun s k => ⟨fun hclaimed hnone => ?_, fun hclaimed hnone => ?_⟩
  · have hread : s.palEntry k.toNat = .error (.unwrittenEntry .pal k.toNat) :=
      readEntry_of_read_none .pal hnone
    simp [exec, execRdpal, hclaimed.not_ge, hread]
  · have hread : s.idxEntry k.toNat = .error (.unwrittenEntry .idx k.toNat) :=
      readEntry_of_read_none .idx hnone
    simp [exec, execRdidx, hclaimed.not_ge, hread]

end Sys2Proof.Machine

/-! ## Encoding (30_encoding.md): which words are illegal, the fields of a response -/

namespace Sys2Proof

/-! ### A word and its fields -/

/-- A word is its opcode, its reserved bits and its operand bits (R81). -/
theorem append_fields (w : Word) : opField w ++ rsvField w ++ argField w = w := by
  have hhigh : opField w ++ rsvField w = w.extractLsb' 24 8 :=
    BitVec.extractLsb'_append_extractLsb'_eq_extractLsb' rfl
  have hword : w.extractLsb' 24 8 ++ argField w = w.extractLsb' 0 32 :=
    BitVec.extractLsb'_append_extractLsb'_eq_extractLsb' rfl
  rw [hhigh, hword, BitVec.extractLsb'_eq_self]

theorem word_eq_iff_fields {w v : Word} :
    w = v ↔ opField w = opField v ∧ rsvField w = rsvField v ∧ argField w = argField v := by
  refine ⟨by rintro rfl; simp, fun ⟨hop, hrsv, harg⟩ => ?_⟩
  rw [← append_fields w, ← append_fields v, hop, hrsv, harg]

/-- The operand bits are the bits that are zero in format N, then the low byte (R84). -/
theorem argField_eq_append (w : Word) : argField w = highArgField w ++ fieldLow w :=
  (BitVec.extractLsb'_append_extractLsb'_eq_extractLsb' (start₁ := 0) (len₁ := 8) rfl).symm

@[simp] theorem opField_and (w v : Word) : opField (w &&& v) = opField w &&& opField v :=
  BitVec.extractLsb'_and

@[simp] theorem rsvField_and (w v : Word) : rsvField (w &&& v) = rsvField w &&& rsvField v :=
  BitVec.extractLsb'_and

@[simp] theorem argField_and (w v : Word) : argField (w &&& v) = argField w &&& argField v :=
  BitVec.extractLsb'_and

/-! ### The match and mask columns against the field rules -/

/-- The mask of a format: every bit the field rules fix (R82 to R84). -/
def Format.mask : Format → Word
  | .Z => 0xFFFFFFFF#32
  | .C => 0xFF000000#32
  | .N => 0xFFFFFF00#32

@[simp] theorem Format.opField_mask (f : Format) : opField f.mask = BitVec.allOnes 4 := by
  cases f <;> decide

@[simp] theorem Format.rsvField_mask (f : Format) : rsvField f.mask = BitVec.allOnes 4 := by
  cases f <;> decide

/-- The operand bits under a format's mask are the ones the format says are 0. -/
theorem argField_and_mask_eq_zero_iff (f : Format) (w : Word) :
    argField w &&& argField f.mask = 0#24 ↔ operandLegal f w = true := by
  cases f with
  | Z =>
    have hmask : argField Format.Z.mask = BitVec.allOnes 24 := by decide
    rw [hmask, BitVec.and_allOnes, operandLegal, beq_iff_eq]
  | C =>
    have hmask : argField Format.C.mask = 0#24 := by decide
    simp [hmask, operandLegal]
  | N =>
    have hmask : argField Format.N.mask = BitVec.allOnes 16 ++ 0#8 := by decide
    have hzero : 0#24 = 0#16 ++ 0#8 := by decide
    rw [hmask, argField_eq_append, BitVec.and_append, BitVec.and_allOnes, BitVec.and_zero, hzero,
      BitVec.append_left_inj]
    simp [operandLegal]

/-- A word meets the match and mask of a format's opcode exactly when its fields obey R81 to R84. -/
theorem and_mask_eq_iff (f : Format) (op : BitVec 4) (w : Word) :
    w &&& f.mask = formatZ op ↔
      opField w = op ∧ rsvField w = 0#4 ∧ operandLegal f w = true := by
  simp only [word_eq_iff_fields, opField_and, rsvField_and, argField_and, Format.opField_mask,
    Format.rsvField_mask, BitVec.and_allOnes, opField_formatZ, rsvField_formatZ, argField_formatZ,
    argField_and_mask_eq_zero_iff]

/-- Every row of the opcode map is an opcode under its format's mask (R86). -/
theorem format_of_opcodeRow : ∀ row ∈ opcodeRows, ∃ f,
    formatOf (opField row.pattern) = some f ∧ row.pattern = formatZ (opField row.pattern) ∧
      row.mask = f.mask := by
  simp only [opcodeRows, List.forall_mem_cons]
  refine ⟨⟨.Z, ?_⟩, ⟨.C, ?_⟩, ⟨.C, ?_⟩, ⟨.Z, ?_⟩, ⟨.Z, ?_⟩, ⟨.N, ?_⟩, ⟨.N, ?_⟩, ⟨.N, ?_⟩, by simp⟩ <;>
    decide

/-- Every opcode that has a format has a row of the opcode map (R86). -/
theorem opcodeRow_of_format {op : BitVec 4} {f : Format} (h : formatOf op = some f) :
    ∃ row ∈ opcodeRows, row.pattern = formatZ op ∧ row.mask = f.mask := by
  have hrows : ∀ op : BitVec 4, ∀ f ∈ formatOf op,
      ∃ row ∈ opcodeRows, row.pattern = formatZ op ∧ row.mask = f.mask := by decide
  exact hrows op f h

theorem OpcodeRow.hits_iff (row : OpcodeRow) (w : Word) :
    row.hits w = true ↔ w &&& row.mask = row.pattern := by
  simp [OpcodeRow.hits]

theorem legalWord_iff (w : Word) :
    legalWord w = true ↔
      ∃ f, formatOf (opField w) = some f ∧ rsvField w = 0#4 ∧ operandLegal f w = true := by
  unfold legalWord
  cases formatOf (opField w) <;> simp

/-- A row of the opcode map hits exactly the words that are legal by the field rules. -/
theorem exists_row_hits_iff_legalWord (w : Word) :
    (∃ row ∈ opcodeRows, row.hits w = true) ↔ legalWord w = true := by
  simp only [OpcodeRow.hits_iff, legalWord_iff]
  constructor
  · rintro ⟨row, hrow, hhit⟩
    obtain ⟨f, hf, hpattern, hmask⟩ := format_of_opcodeRow row hrow
    rw [hmask, hpattern, and_mask_eq_iff] at hhit
    obtain ⟨hop, hfields⟩ := hhit
    exact ⟨f, hop ▸ hf, hfields⟩
  · rintro ⟨f, hf, hfields⟩
    obtain ⟨row, hrow, hpattern, hmask⟩ := opcodeRow_of_format hf
    refine ⟨row, hrow, ?_⟩
    rw [hmask, hpattern, and_mask_eq_iff]
    exact ⟨rfl, hfields⟩

/-- Decoding rejects a word exactly when no row of the opcode map hits it (R87). -/
theorem decode_error_iff_no_row (w : Word) :
    (∃ e, decode w = .error e) ↔ ¬ ∃ row ∈ opcodeRows, row.hits w = true := by
  unfold decode
  cases h : opcodeRows.find? fun row => row.hits w with
  | none => simpa using h
  | some row =>
    have hhit : ∃ row ∈ opcodeRows, row.hits w = true :=
      ⟨row, List.mem_of_find?_eq_some h, by simpa using List.find?_some h⟩
    simp [hhit]

theorem decode_error_iff_not_legalWord (w : Word) :
    (∃ e, decode w = .error e) ↔ ¬ legalWord w = true := by
  rw [decode_error_iff_no_row, exists_row_hits_iff_legalWord]

/-! ### The clauses of R88 -/

theorem formatOf_eq_none_iff : ∀ op : BitVec 4, formatOf op = none ↔ op = 0#4 ∨ 9 ≤ op.toNat := by
  decide

/-- The clauses of R88, one by one. -/
theorem not_legalWord_iff (w : Word) :
    ¬ legalWord w = true ↔
      (opField w = 0#4 ∨ 9 ≤ (opField w).toNat ∨ rsvField w ≠ 0#4 ∨
        (formatOf (opField w) = some .Z ∧ argField w ≠ 0#24) ∨
        (formatOf (opField w) = some .N ∧ highArgField w ≠ 0#16)) := by
  rw [← or_assoc, ← formatOf_eq_none_iff, legalWord_iff]
  cases formatOf (opField w) with
  | none => simp
  | some f => cases f <;> simp [operandLegal, imp_iff_not_or]

end Sys2Proof

namespace Sys2Proof.Machine

/-! ### The step of an illegal word -/

theorem fetch_of_decode_error {s : State} {w : Word} {ans : SinkAnswer} {rest : List HostEvent}
    {e : Illegal} (hs : s.inbox = .command w ans :: rest) (hw : decode w = .error e) :
    fetch s = .illegal := by
  simp [fetch, hs, hw]

theorem step_of_decode_error {s : State} {w : Word} {ans : SinkAnswer} {rest : List HostEvent}
    {e : Illegal} (hs : s.inbox = .command w ans :: rest) (hw : decode w = .error e) :
    step s = raise .illegalCmd { s with inbox := rest, sinkAnswer := ans } := by
  simp [step, fetch_of_decode_error hs hw, illegalWord, State.consume_of_command hs]

/-- The response of an illegal word: `ERROR` with the code of `ILLEGAL_CMD` (R89, R200). -/
theorem responseWord_illegalCmd :
    responseWord .error (ErrKind.illegalCmd.code.setWidth 16) = 0x00010005#32 := by
  decide

/-- Settles O4: the rows of the decoder hit exactly the words the field rules allow, the clauses of
R88 say which are left, and the step of such a word is the error entry. -/
theorem illegalWordsFault : Obligations.IllegalWordsFault := by
  refine ⟨fun w => ?_, ⟨_, rfl⟩, ⟨_, rfl⟩, fun s w ans rest e hs hw => ?_⟩
  · rw [decode_error_iff_not_legalWord, not_legalWord_iff]
  · rw [step_of_decode_error hs hw, raise_eq]
    simp [State.latch, State.answer, ErrKind.code, ← responseWord_illegalCmd]

/-! ### The fields of a response word -/

@[simp] theorem extractLsb'_responseWord_reserved (st : Status) (val : Colour) :
    (responseWord st val).extractLsb' 18 14 = 0#14 := by
  rw [responseWord, BitVec.extractLsb'_append_eq_of_le (by decide)]
  exact BitVec.extractLsb'_append_eq_left

@[simp] theorem extractLsb'_responseWord_st (st : Status) (val : Colour) :
    (responseWord st val).extractLsb' 16 2 = st.code := by
  rw [responseWord, BitVec.extractLsb'_append_eq_of_le (by decide)]
  exact BitVec.extractLsb'_append_eq_right

@[simp] theorem extractLsb'_responseWord_val (st : Status) (val : Colour) :
    (responseWord st val).extractLsb' 0 16 = val :=
  BitVec.extractLsb'_append_eq_right

/-- Settles O6: each field of R89 read back, and the codes as the model writes them. -/
theorem responseWordFields : Obligations.ResponseWordFields :=
  ⟨fun st val => ⟨extractLsb'_responseWord_reserved st val, extractLsb'_responseWord_st st val,
    extractLsb'_responseWord_val st val⟩, rfl, rfl, rfl⟩

end Sys2Proof.Machine

/-! ## The quantizer (40_quantizer.md): the colour by its three fields, its pre-images, `QUANT` -/

namespace Sys2Proof.Machine

/-! ### The layout of a quantized colour -/

/-- The 16-bit colour of three 5-bit fields, blue high and red low, bit 15 zero (R13, R110). -/
def bgr555 (r g b : BitVec 5) : Colour := (b ++ g ++ r).setWidth 16

theorem bgr555_eq_or (r g b : BitVec 5) :
    bgr555 r g b = b.setWidth 16 <<< 10 ||| g.setWidth 16 <<< 5 ||| r.setWidth 16 :=
  BitVec.setWidth_append_append_eq_shiftLeft_setWidth_or

@[simp] theorem bgr555_zero : bgr555 0#5 0#5 0#5 = 0#16 := by decide

@[simp] theorem extractLsb'_bgr555_red (r g b : BitVec 5) :
    (bgr555 r g b).extractLsb' 0 5 = r := by
  rw [bgr555, BitVec.extractLsb'_setWidth_of_le (by decide)]
  exact BitVec.extractLsb'_append_eq_right

@[simp] theorem extractLsb'_bgr555_green (r g b : BitVec 5) :
    (bgr555 r g b).extractLsb' 5 5 = g := by
  rw [bgr555, BitVec.extractLsb'_setWidth_of_le (by decide),
    BitVec.extractLsb'_append_eq_of_le (by decide)]
  exact BitVec.extractLsb'_append_eq_right

@[simp] theorem extractLsb'_bgr555_blue (r g b : BitVec 5) :
    (bgr555 r g b).extractLsb' 10 5 = b := by
  rw [bgr555, BitVec.extractLsb'_setWidth_of_le (by decide),
    BitVec.extractLsb'_append_eq_of_le (by decide)]
  exact BitVec.extractLsb'_append_eq_left

theorem getLsbD_bgr555_15 (r g b : BitVec 5) : (bgr555 r g b).getLsbD 15 = false := by
  simp [bgr555]

/-- The layout is injective: each field is read back. -/
theorem bgr555_inj {r g b r' g' b' : BitVec 5} :
    bgr555 r g b = bgr555 r' g' b' ↔ r = r' ∧ g = g' ∧ b = b' := by
  refine ⟨fun h => ⟨?_, ?_, ?_⟩, by rintro ⟨rfl, rfl, rfl⟩; rfl⟩
  · simpa using congrArg (BitVec.extractLsb' 0 5) h
  · simpa using congrArg (BitVec.extractLsb' 5 5) h
  · simpa using congrArg (BitVec.extractLsb' 10 5) h

theorem bgr555_and (r g b r' g' b' : BitVec 5) :
    bgr555 r g b &&& bgr555 r' g' b' = bgr555 (r &&& r') (g &&& g') (b &&& b') := by
  simp only [bgr555, ← BitVec.setWidth_and, BitVec.and_append]

theorem bgr555_or (r g b r' g' b' : BitVec 5) :
    bgr555 r g b ||| bgr555 r' g' b' = bgr555 (r ||| r') (g ||| g') (b ||| b') := by
  simp only [bgr555, ← BitVec.setWidth_or, BitVec.or_append]

theorem bgr555_xor (r g b r' g' b' : BitVec 5) :
    bgr555 r g b ^^^ bgr555 r' g' b' = bgr555 (r ^^^ r') (g ^^^ g') (b ^^^ b') := by
  simp only [bgr555, ← BitVec.setWidth_xor, BitVec.xor_append]

/-- Colours whose fields share no bit add without a carry. -/
theorem bgr555_add {r g b r' g' b' : BitVec 5} (hr : r &&& r' = 0#5) (hg : g &&& g' = 0#5)
    (hb : b &&& b' = 0#5) :
    bgr555 r g b + bgr555 r' g' b' = bgr555 (r ||| r') (g ||| g') (b ||| b') := by
  rw [BitVec.add_eq_or_of_and_eq_zero _ _ (by rw [bgr555_and, hr, hg, hb, bgr555_zero]), bgr555_or]

/-! ### A channel by its bits 7:3 -/

theorem append_extractLsb'_three (x : Byte) : x.extractLsb' 3 5 ++ x.extractLsb' 0 3 = x :=
  (BitVec.extractLsb'_append_extractLsb'_eq_extractLsb' rfl).trans BitVec.extractLsb'_eq_self

/-- The mask keeps bits 7:3 and clears the rest. -/
theorem and_0xF8_eq_append (x : Byte) : x &&& 0xF8#8 = x.extractLsb' 3 5 ++ 0#3 := by
  have hmask : 0xF8#8 = BitVec.allOnes 5 ++ 0#3 := by decide
  calc x &&& 0xF8#8
      = (x.extractLsb' 3 5 ++ x.extractLsb' 0 3) &&& (BitVec.allOnes 5 ++ 0#3) := by
        rw [append_extractLsb'_three, ← hmask]
    _ = x.extractLsb' 3 5 ++ 0#3 := by
        rw [BitVec.and_append, BitVec.and_allOnes, BitVec.and_zero]

theorem extractLsb'_and_0xF8 (x : Byte) :
    (x &&& 0xF8#8).extractLsb' 3 5 = x.extractLsb' 3 5 := by
  rw [and_0xF8_eq_append]
  exact BitVec.extractLsb'_append_eq_left

theorem ushiftRight_three_eq (x : Byte) : x >>> 3 = (x.extractLsb' 3 5).setWidth 8 := by
  rw [BitVec.ushiftRight_eq_extractLsb'_of_lt (by decide), BitVec.setWidth_eq_append (by decide)]

/-- The mask before the shift is redundant. -/
theorem and_0xF8_ushiftRight_three (x : Byte) : (x &&& 0xF8#8) >>> 3 = x >>> 3 := by
  rw [ushiftRight_three_eq, extractLsb'_and_0xF8, ← ushiftRight_three_eq]

theorem channel5_eq_setWidth (x : Byte) : channel5 x = (x.extractLsb' 3 5).setWidth 16 := by
  rw [channel5, and_0xF8_ushiftRight_three, ushiftRight_three_eq,
    BitVec.setWidth_setWidth (by decide)]

/-! ### The three channels in their places -/

theorem channel5_eq_bgr555 (x : Byte) : channel5 x = bgr555 (x.extractLsb' 3 5) 0#5 0#5 := by
  simp [channel5_eq_setWidth, bgr555_eq_or]

theorem channel5_shiftLeft_5 (x : Byte) :
    channel5 x <<< 5 = bgr555 0#5 (x.extractLsb' 3 5) 0#5 := by
  simp [channel5_eq_setWidth, bgr555_eq_or]

theorem channel5_shiftLeft_10 (x : Byte) :
    channel5 x <<< 10 = bgr555 0#5 0#5 (x.extractLsb' 3 5) := by
  simp [channel5_eq_setWidth, bgr555_eq_or]

/-- A quantized colour holds bits 7:3 of each channel (R110). -/
theorem quant_eq_bgr555 (r g b : Byte) :
    quant r g b = bgr555 (r.extractLsb' 3 5) (g.extractLsb' 3 5) (b.extractLsb' 3 5) := by
  rw [quant, channel5_shiftLeft_5, channel5_shiftLeft_10, channel5_eq_bgr555, bgr555_or, bgr555_or]
  simp only [BitVec.or_zero, BitVec.zero_or]

theorem quant_eq_add (r g b : Byte) :
    quant r g b = channel5 r + channel5 g <<< 5 + channel5 b <<< 10 := by
  rw [quant_eq_bgr555, channel5_shiftLeft_5, channel5_shiftLeft_10, channel5_eq_bgr555,
    bgr555_add (by simp) (by simp) (by simp), bgr555_add (by simp) (by simp) (by simp)]
  simp only [BitVec.or_zero, BitVec.zero_or]

theorem quant_eq_xor (r g b : Byte) :
    quant r g b = (channel5 r ^^^ channel5 g <<< 5 ^^^ channel5 b <<< 10) := by
  rw [quant_eq_bgr555, channel5_shiftLeft_5, channel5_shiftLeft_10, channel5_eq_bgr555,
    bgr555_xor, bgr555_xor]
  simp only [BitVec.xor_zero, BitVec.zero_xor]

/-- Settles O11: the channels stand in three fields that do not overlap, so `|`, `+` and `^` agree. -/
theorem quantFormulaBitByBit : Obligations.QuantFormulaBitByBit := by
  refine fun r g b => ⟨rfl, quant_eq_add r g b, quant_eq_xor r g b, ?_⟩
  rw [quant_eq_bgr555]
  exact ⟨extractLsb'_bgr555_red .., extractLsb'_bgr555_green .., extractLsb'_bgr555_blue ..,
    getLsbD_bgr555_15 .., and_0xF8_ushiftRight_three r⟩

/-! ### Which samples share a colour -/

/-- Settles O12: the layout of the colour is injective. -/
theorem quantMergesOnlyTruncatedTwins : Obligations.QuantMergesOnlyTruncatedTwins := by
  intro r g b r' g' b'
  rw [quant_eq_bgr555, quant_eq_bgr555, bgr555_inj]

/-- The channels with given bits 7:3 are these bits followed by any three. -/
theorem setOf_extractLsb'_eq_range (v : BitVec 5) :
    {x : Byte | x.extractLsb' 3 5 = v} = Set.range fun low : BitVec 3 => v ++ low := by
  ext x
  constructor
  · rintro rfl
    exact ⟨x.extractLsb' 0 3, append_extractLsb'_three x⟩
  · rintro ⟨low, rfl⟩
    exact BitVec.extractLsb'_append_eq_left

theorem ncard_setOf_extractLsb'_eq (v : BitVec 5) :
    {x : Byte | x.extractLsb' 3 5 = v}.ncard = 8 := by
  have hinj : Function.Injective fun low : BitVec 3 => v ++ low :=
    fun _ _ h => (BitVec.append_right_inj v).mp h
  rw [setOf_extractLsb'_eq_range, ← Set.image_univ, Set.ncard_image_of_injective _ hinj,
    Set.ncard_univ, Nat.card_congr BitVec.equivFin.toEquiv, Nat.card_fin]
  rfl

/-- Settles O13: each of the three channels leaves its three low bits free. -/
theorem eachColourHas512Samples : Obligations.EachColourHas512Samples := by
  intro r g b
  have hprod : {p : Sample | quant p.1 p.2.1 p.2.2 = quant r g b} =
      {x | x.extractLsb' 3 5 = r.extractLsb' 3 5} ×ˢ
        {x | x.extractLsb' 3 5 = g.extractLsb' 3 5} ×ˢ
          {x | x.extractLsb' 3 5 = b.extractLsb' 3 5} :=
    Set.ext fun p => quantMergesOnlyTruncatedTwins p.1 p.2.1 p.2.2 r g b
  simp only [hprod, Set.ncard_prod, ncard_setOf_extractLsb'_eq]

/-! ### Expanding a colour -/

theorem setWidth_shiftLeft_three_eq (v : BitVec 5) : v.setWidth 8 <<< 3 = v ++ 0#3 := by
  have h : (v ++ 0#3).setWidth 8 = v.setWidth 8 <<< 3 ||| (0#3).setWidth 8 :=
    BitVec.setWidth_append_eq_shiftLeft_setWidth_or
  simpa using h.symm

/-- Expanding a quantized colour truncates each channel of the sample (R113). -/
theorem expand_quant (r g b : Byte) :
    expand (quant r g b) = (r &&& 0xF8#8, g &&& 0xF8#8, b &&& 0xF8#8) := by
  simp only [expand, quant_eq_bgr555, extractLsb'_bgr555_red, extractLsb'_bgr555_green,
    extractLsb'_bgr555_blue, setWidth_shiftLeft_three_eq, and_0xF8_eq_append]

/-- Settles O14: the expansion keeps bits 7:3 of each channel, which are all that `quant` reads. -/
theorem quantIsIdempotent : Obligations.QuantIsIdempotent := by
  refine fun r g b => ⟨?_, expand_quant r g b⟩
  rw [expand_quant]
  simp only [quant_eq_bgr555, extractLsb'_and_0xF8]

end Sys2Proof.Machine

/-! ### The command word of `QUANT` -/

namespace Sys2Proof

/-- Format C as R83 draws it: the opcode byte and the three channels, each shifted to its place. -/
theorem formatC_eq_or (op : BitVec 4) (r g b : Byte) :
    formatC op r g b = (op ++ 0#4).setWidth 32 <<< 24 ||| r.setWidth 32 <<< 16 |||
      g.setWidth 32 <<< 8 ||| b.setWidth 32 :=
  (BitVec.setWidth_eq _).symm.trans
    BitVec.setWidth_append_append_append_eq_shiftLeft_setWidth_or

@[simp] theorem fieldLow_formatC (op : BitVec 4) (r g b : Byte) : fieldLow (formatC op r g b) = b :=
  BitVec.extractLsb'_append_eq_right

@[simp] theorem fieldG_formatC (op : BitVec 4) (r g b : Byte) : fieldG (formatC op r g b) = g := by
  rw [fieldG, formatC, BitVec.extractLsb'_append_eq_of_le (by decide)]
  exact BitVec.extractLsb'_append_eq_right

@[simp] theorem fieldR_formatC (op : BitVec 4) (r g b : Byte) : fieldR (formatC op r g b) = r := by
  rw [fieldR, formatC, BitVec.extractLsb'_append_eq_of_le (by decide),
    BitVec.extractLsb'_append_eq_of_le (by decide)]
  exact BitVec.extractLsb'_append_eq_right

/-- A row of the opcode map hits words of its own opcode alone. -/
theorem opField_eq_of_hits {row : OpcodeRow} {w : Word} (hrow : row ∈ opcodeRows)
    (h : row.hits w = true) : opField w = opField row.pattern := by
  obtain ⟨f, -, hpattern, hmask⟩ := format_of_opcodeRow row hrow
  rw [OpcodeRow.hits_iff, hpattern, hmask, and_mask_eq_iff] at h
  obtain ⟨hop, -⟩ := h
  exact hop

/-- A legal word decodes to what the one row of its opcode builds from it. -/
theorem decode_eq_of_build {w : Word} {i : Instr} (hlegal : legalWord w = true)
    (hbuild : ∀ row ∈ opcodeRows, opField row.pattern = opField w → row.build w = i) :
    decode w = .ok i := by
  unfold decode
  cases hfind : opcodeRows.find? fun row => row.hits w with
  | none =>
    obtain ⟨row, hrow, hhit⟩ := (exists_row_hits_iff_legalWord w).mpr hlegal
    exact absurd hhit (List.find?_eq_none.mp hfind row hrow)
  | some row =>
    have hrow : row ∈ opcodeRows := List.mem_of_find?_eq_some hfind
    have hhit : row.hits w = true := by simpa using List.find?_some hfind
    exact congrArg Except.ok (hbuild row hrow (opField_eq_of_hits hrow hhit).symm)

theorem decode_encode_quant (r g b : Byte) :
    decode (encode (.quant r g b)) = .ok (.quant r g b) := by
  refine decode_eq_of_build (Laws.EncodesLegal.quant r g b) ?_
  have hop : opField (encode (.quant r g b)) = 2#4 := opField_formatC ..
  rw [hop]
  simp [opcodeRows, opField, encode]

end Sys2Proof

namespace Sys2Proof.Machine

/-- Settles O15: the word is the command's encoding, and `QUANT` has one outcome. -/
theorem quantCommandResult : Obligations.QuantCommandResult := by
  refine fun r g b s => ⟨?_, ?_⟩
  · have hword : 0x20000000#32 ||| r.setWidth 32 <<< 16 ||| g.setWidth 32 <<< 8 |||
        b.setWidth 32 = encode (.quant r g b) := (formatC_eq_or 2#4 r g b).symm
    rw [hword, decode_encode_quant]
  · rw [← responseWord_ok]
    rfl

end Sys2Proof.Machine

/-! ## The palette builder (41_palette_builder.md): the search, the outcomes of `PIX`, its frame, the indexer -/

namespace Sys2Proof.Machine

/-! ### Searching the palette -/

/-- The search of R124 is the library's. -/
theorem lookup_eq_idxOf? (c : Colour) (pal : List Colour) : lookup c pal = pal.idxOf? c := by
  induction pal with
  | nil => rfl
  | cons d ds ih => simp [lookup, List.idxOf?_cons, ih]

theorem lookup_eq_some_iff {c : Colour} {pal : List Colour} {k : Nat} :
    lookup c pal = some k ↔
      ∃ h : k < pal.length, pal[k] = c ∧ ∀ (j : Nat) (hj : j < k), pal[j] ≠ c := by
  rw [lookup_eq_idxOf?]
  exact List.idxOf?_eq_some_iff

theorem lookup_eq_none_iff {c : Colour} {pal : List Colour} : lookup c pal = none ↔ c ∉ pal := by
  rw [lookup_eq_idxOf?]
  exact List.idxOf?_eq_none_iff

theorem lookup_eq_some_idxOf {c : Colour} {pal : List Colour} (h : c ∈ pal) :
    lookup c pal = some (pal.idxOf c) := by
  rw [List.idxOf_eq_getD_idxOf?, ← lookup_eq_idxOf?]
  cases hk : lookup c pal with
  | none => exact absurd h (lookup_eq_none_iff.mp hk)
  | some k => rfl

/-- Settles O16, from the library's search and the injectivity of a list without duplicates. -/
theorem lookupIsLeastMatch : Obligations.LookupIsLeastMatch := by
  refine ⟨fun c pal k => lookup_eq_some_iff, fun c pal => ?_, fun c => rfl, ?_⟩
  · rw [lookup_eq_none_iff]
    exact List.forall_mem_ne'.symm
  · intro c pal j k hj hk hnodup hjc hkc
    exact hnodup.getElem_inj_iff.mp (hjc.trans hkc.symm)

/-- The first match in a palette given as a function of the position. -/
theorem lookup_map_range_eq_some {c : Colour} {p : Nat → Colour} {n k : Nat} (hk : k < n)
    (hc : p k = c) (hleast : ∀ j < k, p j ≠ c) : lookup c ((List.range n).map p) = some k :=
  lookup_eq_some_iff.mpr ⟨by simpa using hk, by simpa using hc, by simpa using hleast⟩

theorem lookup_map_range_eq_none {c : Colour} {p : Nat → Colour} {n : Nat}
    (h : ∀ j < n, p j ≠ c) : lookup c ((List.range n).map p) = none :=
  lookup_eq_none_iff.mpr (by simpa using h)

/-! ### Counts and indices -/

theorem add_one_eq_ofNat (x : Byte) : x + 1#8 = BitVec.ofNat 8 (x.toNat + 1) := by
  rw [BitVec.ofNat_add, BitVec.ofNat_toNat, BitVec.setWidth_eq]

theorem toNat_plen_add_one {s : State} (h : s.plen.toNat < 255) :
    (s.plen + 1#8).toNat = s.plen.toNat + 1 := by
  bv_omega

theorem toNat_wptr_add_one {s : State} (h : s.wptr.toNat < 256) :
    (s.wptr + 1#9).toNat = s.wptr.toNat + 1 := by
  bv_omega

theorem wptr_ne_of_lt {s : State} (h : s.wptr.toNat < 256) : s.wptr ≠ 256#9 :=
  fun he => by simp [he] at h

/-! ### The outcomes of `PIX` with no error latched -/

/-- The error entry when no error is latched yet (R210). -/
theorem raise_of_err_zero {s : State} (k : ErrKind) (h : s.err = 0#3) :
    raise k s = .next { s with
      err := k.code, responses := s.responses ++ [0x00010000#32 ||| k.code.setWidth 32] } := by
  rw [raise_eq, ← responseWord_error, State.latch, if_pos h, State.answer]

theorem acceptPixel_of_lt {s : State} (v : Byte) (h : s.wptr.toNat < 256) :
    acceptPixel v s = .next { s with
      idx := s.idx.write s.wptr.toNat v,
      wptr := s.wptr + 1#9,
      responses := s.responses ++ [v.setWidth 32] } := by
  have hwrite : writeEntry .idx s.idx s.wptr.toNat v = .ok (s.idx.write s.wptr.toNat v) :=
    (writeEntry_ok_iff ..).mpr ⟨h, rfl⟩
  simp [acceptPixel, hwrite, respond_eq, State.answer, responseWord_ok_setWidth]

section
variable {r g b : Byte} {s : State} {pal : List Colour}

/-- A full buffer is found before the palette is looked at (R126, R209). -/
theorem exec_pix_of_wptr_full (herr : s.err = 0#3) (hwptr : s.wptr = 256#9) :
    exec (.pix r g b) s = raise .shape s := by
  simp [exec, execPix, herr, hwptr]

/-- The colour stands at position `k` (R120, R127). -/
theorem exec_pix_of_found {k : Nat} (herr : s.err = 0#3) (hwptr : s.wptr.toNat < 256)
    (hpal : s.palette = .ok pal) (hk : lookup (quant r g b) pal = some k) :
    exec (.pix r g b) s = .next { s with
      idx := s.idx.write s.wptr.toNat (BitVec.ofNat 8 (k + 1)),
      wptr := s.wptr + 1#9,
      responses := s.responses ++ [(BitVec.ofNat 8 (k + 1)).setWidth 32] } := by
  have hroom : s.wptr ≠ 256#9 := wptr_ne_of_lt hwptr
  simp [exec, execPix, herr, hroom, hpal, hk, acceptPixel_of_lt _ hwptr]

/-- The colour is new and the palette has room (R120, R122). -/
theorem exec_pix_of_new (herr : s.err = 0#3) (hwptr : s.wptr.toNat < 256)
    (hplen : s.plen.toNat < 255) (hpal : s.palette = .ok pal)
    (hnew : lookup (quant r g b) pal = none) :
    exec (.pix r g b) s = .next { s with
      pal := s.pal.write s.plen.toNat (quant r g b),
      plen := s.plen + 1#8,
      idx := s.idx.write s.wptr.toNat (s.plen + 1#8),
      wptr := s.wptr + 1#9,
      responses := s.responses ++ [(s.plen + 1#8).setWidth 32] } := by
  have hroom : s.wptr ≠ 256#9 := wptr_ne_of_lt hwptr
  have hfits : s.plen ≠ 255#8 := fun h => by simp [h] at hplen
  have haccept := acceptPixel_of_lt (s := s.appendColour (quant r g b)) (s.plen + 1#8) hwptr
  simpa [exec, execPix, herr, hroom, hpal, hnew, hfits] using haccept

/-- The colour is new and the palette is full (R125). -/
theorem exec_pix_of_palette_full (herr : s.err = 0#3) (hwptr : s.wptr.toNat < 256)
    (hplen : s.plen = 255#8) (hpal : s.palette = .ok pal)
    (hnew : lookup (quant r g b) pal = none) :
    exec (.pix r g b) s = raise .capacity s := by
  have hroom : s.wptr ≠ 256#9 := wptr_ne_of_lt hwptr
  simp [exec, execPix, herr, hroom, hpal, hnew, hplen]

end

/-- Settles O19: the buffer's test comes before the palette is read. -/
theorem pixOnFullBuffer : Obligations.PixOnFullBuffer := by
  intro r g b s herr hwptr
  rw [exec_pix_of_wptr_full herr hwptr, raise_of_err_zero .shape herr]
  rfl

/-- Settles O17: the search finds position `k`, and the index fits in a byte. -/
theorem pixOfSeenColour : Obligations.PixOfSeenColour := by
  intro r g b s p k herr hwptr hread hk hc hleast
  have hfits : k + 1 < 2 ^ 8 := by have := s.plen.isLt; omega
  rw [exec_pix_of_found herr hwptr (State.palette_of_read hread)
    (lookup_map_range_eq_some hk hc hleast), BitVec.setWidth_ofNat_of_le_of_lt (by decide) hfits]

/-- Settles O18: the search finds nothing, and the index fits in a byte. -/
theorem pixOfNewColour : Obligations.PixOfNewColour := by
  intro r g b s p herr hwptr hplen hread hnew
  have hfits : s.plen.toNat + 1 < 2 ^ 8 := by omega
  rw [exec_pix_of_new herr hwptr hplen (State.palette_of_read hread)
    (lookup_map_range_eq_none hnew), add_one_eq_ofNat,
    BitVec.setWidth_ofNat_of_le_of_lt (by decide) hfits]

/-- Settles O20: `CAPACITY` needs a new colour on a full palette; the other two clauses are O17 and
O18 at the boundary. -/
theorem pixCapacity : Obligations.PixCapacity := by
  intro r g b s p herr hwptr hread
  refine ⟨fun hplen hnew => ?_, fun k hk hplen hc hleast => ?_, fun hplen hnew => ?_⟩
  · have hnew : ∀ j < s.plen.toNat, p j ≠ quant r g b := by simpa [hplen] using hnew
    rw [exec_pix_of_palette_full herr hwptr hplen (State.palette_of_read hread)
      (lookup_map_range_eq_none hnew), raise_of_err_zero .capacity herr]
    rfl
  · exact pixOfSeenColour r g b s p k herr hwptr hread (by simpa [hplen] using hk) hc hleast
  · have hnew : ∀ j < s.plen.toNat, p j ≠ quant r g b := by simpa [hplen] using hnew
    exact ⟨_, pixOfNewColour r g b s p herr hwptr (by simp [hplen]) hread hnew,
      by simp [herr, hplen]⟩

/-- Settles O21: an index is a position plus one, and it does not wrap because a position is below
255; the first pixel finds an empty palette. -/
theorem pixIndexNamesItsColour : Obligations.PixIndexNamesItsColour := by
  refine ⟨fun r g b s t h hmoved => ?_, fun r g b s hempty => ?_⟩
  · rcases execPix_next h with ⟨-, rfl⟩ | ⟨-, -, rfl⟩ | ⟨-, -, rfl⟩ | ⟨-, -, k, hk, hread, rfl⟩ |
      ⟨-, -, hplen, -, rfl⟩
    · exact absurd rfl hmoved
    · exact absurd rfl hmoved
    · exact absurd rfl hmoved
    · have hv : (BitVec.ofNat 8 (k + 1)).toNat = k + 1 :=
        Nat.mod_eq_of_lt (by have := s.plen.isLt; omega)
      refine ⟨BitVec.ofNat 8 (k + 1), by simp, by omega, ?_, ?_, ?_⟩
      · simpa [hv] using hk
      · simpa [hv] using hread
      · simp [responseWord_ok_setWidth]
    · have hv := toNat_plen_add_one hplen
      refine ⟨s.plen + 1#8, by simp, by omega, by simp, by simp [hv], ?_⟩
      simp [responseWord_ok_setWidth]
  · obtain ⟨herr, hplen, hwptr, hpal, hidx⟩ := hempty
    have hpalette : s.palette = .ok [] := by simp [State.palette, hplen, readUpto]
    exact ⟨_, exec_pix_of_new herr (by simp [hwptr]) (by simp [hplen]) hpalette rfl,
      by simp [hplen, hwptr]⟩

/-- Settles O22: `PIX` writes no output, and of the image at most the two entries its pointers
name. -/
theorem pixFrame : Obligations.PixFrame := by
  intro r g b s t h
  obtain ⟨hqout, hpdone, hedone, hscr, hsinkP, hsinkS, hinbox, hanswer⟩ := execPix_sameOutputs h
  refine ⟨hqout, hpdone, hedone, hscr, hsinkP, hsinkS, hinbox, hanswer, ?_⟩
  rcases execPix_next h with ⟨-, rfl⟩ | ⟨-, -, rfl⟩ | ⟨-, -, rfl⟩ | ⟨-, -, k, -, -, rfl⟩ |
    ⟨-, -, -, -, rfl⟩
  · simp
  · simp
  · simp
  · simp +contextual [Memory.read_write_other]
  · simp +contextual [Memory.read_write_other]

/-! ### The indexer (R130) -/

theorem indexerRound_of_mem {r : List Colour × List Byte} {p : Sample}
    (h : quant p.1 p.2.1 p.2.2 ∈ r.1) :
    indexerRound r p =
      (r.1, r.2 ++ [BitVec.ofNat 8 (r.1.idxOf (quant p.1 p.2.1 p.2.2) + 1)]) := if_pos h

theorem indexerRound_of_notMem {r : List Colour × List Byte} {p : Sample}
    (h : quant p.1 p.2.1 p.2.2 ∉ r.1) :
    indexerRound r p =
      (r.1 ++ [quant p.1 p.2.1 p.2.2], r.2 ++ [BitVec.ofNat 8 (r.1.length + 1)]) := if_neg h

@[simp] theorem length_indexerRound_snd (r : List Colour × List Byte) (p : Sample) :
    (indexerRound r p).2.length = r.2.length + 1 := by
  by_cases h : quant p.1 p.2.1 p.2.2 ∈ r.1
  · simp [indexerRound_of_mem h]
  · simp [indexerRound_of_notMem h]

theorem length_le_indexerRound_fst (r : List Colour × List Byte) (p : Sample) :
    r.1.length ≤ (indexerRound r p).1.length := by
  by_cases h : quant p.1 p.2.1 p.2.2 ∈ r.1
  · simp [indexerRound_of_mem h]
  · simp [indexerRound_of_notMem h]

theorem length_foldl_indexerRound_snd (ps : List Sample) (r : List Colour × List Byte) :
    (ps.foldl indexerRound r).2.length = r.2.length + ps.length := by
  induction ps generalizing r with
  | nil => rfl
  | cons p ps ih => simp [ih, Nat.add_assoc, Nat.add_comm 1]

theorem length_le_foldl_indexerRound_fst (ps : List Sample) (r : List Colour × List Byte) :
    r.1.length ≤ (ps.foldl indexerRound r).1.length := by
  induction ps generalizing r with
  | nil => rfl
  | cons p ps ih => exact (length_le_indexerRound_fst r p).trans (ih _)

/-! ### Memories that hold a list -/

/-- Where a memory holds exactly a list, writing the entry after its last appends to the list. -/
theorem Memory.read_write_length {w : Nat} {m : Memory w} {vs : List (BitVec w)}
    (h : ∀ a : Nat, m.read a = vs[a]?) (v : BitVec w) (a : Nat) :
    (m.write vs.length v).read a = (vs ++ [v])[a]? := by
  rw [Memory.read_write, h, List.getElem?_append]
  split <;> rename_i ha
  · simp [ha]
  · split <;> rename_i hlt
    · rfl
    · rw [List.getElem?_eq_none (by omega), List.getElem?_eq_none (by simp; omega)]

theorem readUpto_of_read_eq_getElem? {w : Nat} (sp : Space) {m : Memory w} {vs : List (BitVec w)}
    (h : ∀ a : Nat, m.read a = vs[a]?) : readUpto sp m vs.length = .ok vs := by
  have hread : ∀ a < vs.length, m.read a = some (vs.getD a 0#w) := fun a ha => by simp [h, ha]
  rw [readUpto_of_read hread]
  exact congrArg Except.ok (List.ext_getElem (by simp) fun a _ ha => by simp [ha])

/-- No error is latched, and the state holds the palette `r.1` and the indices `r.2` (R130). -/
structure State.HoldsImage (s : State) (r : List Colour × List Byte) : Prop where
  err : s.err = 0#3
  plen : s.plen.toNat = r.1.length
  wptr : s.wptr.toNat = r.2.length
  pal : ∀ k : Nat, s.pal.read k = r.1[k]?
  idx : ∀ a : Nat, s.idx.read a = r.2[a]?

theorem State.EmptyImage.holdsImage {s : State} (h : s.EmptyImage) : s.HoldsImage ([], []) := by
  obtain ⟨herr, hplen, hwptr, hpal, hidx⟩ := h
  exact ⟨herr, by simp [hplen], by simp [hwptr], by simp [hpal, Memory.read],
    by simp [hidx, Memory.read]⟩

theorem State.HoldsImage.palette {s : State} {r : List Colour × List Byte} (h : s.HoldsImage r) :
    s.palette = .ok r.1 := by
  rw [State.palette, h.plen]
  exact readUpto_of_read_eq_getElem? .pal h.pal

/-- One `PIX` is one round: a colour of the palette is found at its first position, and a new one is
appended (R130). -/
theorem State.HoldsImage.pix {s : State} {r : List Colour × List Byte} {p : Sample}
    (hs : s.HoldsImage r) (hbuffer : r.2.length < 256)
    (hcolours : (indexerRound r p).1.length ≤ 255) :
    ∃ t : State, exec (.pix p.1 p.2.1 p.2.2) s = .next t ∧ t.HoldsImage (indexerRound r p) := by
  have hpalette := hs.palette
  obtain ⟨herr, hplen, hwptr, hpal, hidx⟩ := hs
  have hroom : s.wptr.toNat < 256 := hwptr ▸ hbuffer
  by_cases hc : quant p.1 p.2.1 p.2.2 ∈ r.1
  · rw [indexerRound_of_mem hc]
    refine ⟨_, exec_pix_of_found herr hroom hpalette (lookup_eq_some_idxOf hc), herr, hplen, ?_,
      hpal, ?_⟩
    · simp [toNat_wptr_add_one hroom, hwptr]
    · simpa only [hwptr] using Memory.read_write_length hidx _
  · rw [indexerRound_of_notMem hc] at hcolours ⊢
    have hfits : s.plen.toNat < 255 := by simpa [hplen] using hcolours
    refine ⟨_, exec_pix_of_new herr hroom hfits hpalette (lookup_eq_none_iff.mpr hc), herr, ?_, ?_,
      ?_, ?_⟩
    · simp [toNat_plen_add_one hfits, hplen]
    · simp [toNat_wptr_add_one hroom, hwptr]
    · simpa only [hplen] using Memory.read_write_length hpal _
    · simpa only [hwptr, add_one_eq_ofNat, hplen] using Memory.read_write_length hidx _

/-- Settles O23: the round, field by field. -/
theorem pixIsOneIndexerRound : Obligations.PixIsOneIndexerRound := by
  intro r g b s pal idx herr hplen hwptr hbuffer hpal hidx hcolours
  have hs : s.HoldsImage (pal, idx) := ⟨herr, hplen, hwptr, hpal, hidx⟩
  obtain ⟨t, ht, herr', hplen', hwptr', hpal', hidx'⟩ := hs.pix (p := (r, g, b)) hbuffer hcolours
  exact ⟨t, ht, herr', hplen', hwptr', hpal', hidx'⟩

/-- Pixel after pixel is round after round, as long as both memories have room (R130). -/
theorem State.HoldsImage.feedPixels {ps : List Sample} {s : State} {r : List Colour × List Byte}
    (hs : s.HoldsImage r) (hbuffer : r.2.length + ps.length ≤ 256)
    (hcolours : (ps.foldl indexerRound r).1.length ≤ 255) :
    ∃ t : State, feedPixels ps s = .next t ∧ t.HoldsImage (ps.foldl indexerRound r) := by
  induction ps generalizing s r with
  | nil => exact ⟨s, rfl, hs⟩
  | cons p ps ih =>
    rw [List.length_cons] at hbuffer
    obtain ⟨t, ht, hround⟩ := hs.pix (p := p) (by omega)
      ((length_le_foldl_indexerRound_fst ps _).trans hcolours)
    obtain ⟨u, hu, hrest⟩ := ih hround (by rw [length_indexerRound_snd]; omega) hcolours
    exact ⟨u, by simpa [Machine.feedPixels, ht] using hu, hrest⟩

/-- Settles O24: an empty image holds the empty palette and no index, and every pixel is a round. -/
theorem pixelsBuildPaletteAndIndices : Obligations.PixelsBuildPaletteAndIndices := by
  intro ps s hempty hbuffer hcolours
  obtain ⟨t, ht, herr, hplen, hwptr, hpal, hidx⟩ :=
    hempty.holdsImage.feedPixels (by simpa using hbuffer) hcolours
  exact ⟨t, ht, hplen, hpal, by simpa [length_foldl_indexerRound_snd] using hwptr, hidx, herr⟩

end Sys2Proof.Machine

/-! ## The bitplane encoder (42_bitplane_encoder.md): the hidden scratch memory, the closed form, the sprite stream -/

namespace Sys2Proof.Machine

/-! ### Outcomes that differ at most in the scratch memory (R158, R254) -/

/-- The state with another scratch memory. -/
def State.withScr (s : State) (m : Memory 8) : State := { s with scr := m }

@[simp] theorem State.palette_withScr (s : State) (m : Memory 8) :
    (s.withScr m).palette = s.palette := rfl

@[simp] theorem State.frame_withScr (s : State) (m : Memory 8) : (s.withScr m).frame = s.frame := by
  unfold State.frame
  rfl

@[simp] theorem fetch_withScr (s : State) (m : Memory 8) : fetch (s.withScr m) = fetch s := rfl

theorem State.consume_withScr (s : State) (m : Memory 8) :
    (s.withScr m).consume = s.consume.withScr m := by
  have hinbox : (s.withScr m).inbox = s.inbox := rfl
  unfold State.consume
  rw [hinbox]
  rcases s.inbox with _ | ⟨⟨w, ans⟩ | _ | w, rest⟩ <;> rfl

theorem sameButScratch_ite {p : Prop} [Decidable p] {o o' q q' : Host.Outcome State Fault Refusal}
    (ho : sameButScratch o o') (hq : sameButScratch q q') :
    sameButScratch (if p then o else q) (if p then o' else q') := by
  by_cases hp : p
  · simpa only [if_pos hp] using ho
  · simpa only [if_neg hp] using hq

/-- The tests `WRPAL` and `ENCODE` share do not read the scratch memory. -/
theorem whenImageComplete_sameButScratch (s : State) (m : Memory 8)
    {run run' : Host.Outcome State Fault Refusal} (h : sameButScratch run run') :
    sameButScratch (whenImageComplete s run) (whenImageComplete (s.withScr m) run') :=
  sameButScratch_ite rfl (sameButScratch_ite rfl (sameButScratch_ite rfl h))

/-- Nor does the end of a command that offered bytes. -/
theorem finishPut_sameButScratch (x : Sink) {s t : State} (a : PutAnswer) {done : State → State}
    (val : Colour) (hst : s.withoutScratch = t.withoutScratch)
    (hdone : ∀ u, (done u).withoutScratch = done u.withoutScratch) :
    sameButScratch (finishPut x (s, a) done val) (finishPut x (t, a) done val) := by
  cases a with
  | accepted =>
    have h : (done s).withoutScratch = (done t).withoutScratch := by rw [hdone, hdone, hst]
    exact congrArg (State.answer · .ok val) h
  | failed => exact congrArg (fun u => (u.latch .sinkIo).answer .error 4#16) hst
  | silent => rfl
  | reset => exact congrArg (fun u => u.coreReset) hst

theorem acceptPixel_sameButScratch (v : Byte) (s : State) (m : Memory 8) :
    sameButScratch (acceptPixel v s) (acceptPixel v (s.withScr m)) := by
  have hwrite : writeEntry .idx (s.withScr m).idx (s.withScr m).wptr.toNat v =
      writeEntry .idx s.idx s.wptr.toNat v := rfl
  unfold acceptPixel
  rw [hwrite]
  cases writeEntry .idx s.idx s.wptr.toNat v <;> rfl

theorem execPix_sameButScratch (r g b : Byte) (s : State) (m : Memory 8) :
    sameButScratch (execPix r g b s) (execPix r g b (s.withScr m)) := by
  refine sameButScratch_ite rfl (sameButScratch_ite rfl ?_)
  rw [State.palette_withScr]
  cases s.palette with
  | error f => rfl
  | ok pal =>
    dsimp only
    cases lookup (quant r g b) pal with
    | some k => exact acceptPixel_sameButScratch _ s m
    | none => exact sameButScratch_ite rfl (acceptPixel_sameButScratch _ (s.appendColour _) m)

theorem execWrpal_sameButScratch (s : State) (m : Memory 8) :
    sameButScratch (execWrpal s) (execWrpal (s.withScr m)) := by
  refine whenImageComplete_sameButScratch s m ?_
  rw [State.palette_withScr]
  cases s.palette with
  | error f => rfl
  | ok pal =>
    simp only [State.withScr, putBytes_withScr]
    exact finishPut_sameButScratch .P _ _ rfl fun _ => rfl

/-- `ENCODE` writes every cell before it reads it, so it puts the same bytes from either state. -/
theorem execEncode_sameButScratch (s : State) (m : Memory 8) :
    sameButScratch (execEncode s) (execEncode (s.withScr m)) := by
  refine whenImageComplete_sameButScratch s m ?_
  rw [State.frame_withScr]
  cases s.frame with
  | error f => rfl
  | ok frame =>
    obtain ⟨m₁, -, h₁⟩ := encodeTiles_eq frame 4 0 s (by omega)
    obtain ⟨m₂, -, h₂⟩ := encodeTiles_eq frame 4 0 (s.withScr m) (by omega)
    simp only [State.withScr, putBytes_withScr] at h₂
    simp only [Config.ntiles, List.range_eq_range', h₁, State.withScr, h₂]
    exact finishPut_sameButScratch .S _ _ rfl fun _ => rfl

theorem execRdreg_sameButScratch (n : Byte) (s : State) (m : Memory 8) :
    sameButScratch (execRdreg n s) (execRdreg n (s.withScr m)) := by
  have hreg : (s.withScr m).reg n = s.reg n := rfl
  unfold execRdreg
  rw [hreg]
  cases s.reg n <;> rfl

theorem execRdpal_sameButScratch (k : Byte) (s : State) (m : Memory 8) :
    sameButScratch (execRdpal k s) (execRdpal k (s.withScr m)) := by
  have hentry : (s.withScr m).palEntry k.toNat = s.palEntry k.toNat := rfl
  refine sameButScratch_ite rfl ?_
  rw [hentry]
  cases s.palEntry k.toNat <;> rfl

theorem execRdidx_sameButScratch (a : Byte) (s : State) (m : Memory 8) :
    sameButScratch (execRdidx a s) (execRdidx a (s.withScr m)) := by
  have hentry : (s.withScr m).idxEntry a.toNat = s.idxEntry a.toNat := rfl
  refine sameButScratch_ite rfl ?_
  rw [hentry]
  cases s.idxEntry a.toNat <;> rfl

theorem exec_sameButScratch (i : Instr) (s : State) (m : Memory 8) :
    sameButScratch (exec i s) (exec i (s.withScr m)) := by
  cases i with
  | clr => rfl
  | quant r g b => rfl
  | pix r g b => exact execPix_sameButScratch ..
  | wrpal => exact execWrpal_sameButScratch ..
  | encode => exact execEncode_sameButScratch ..
  | rdreg n => exact execRdreg_sameButScratch ..
  | rdpal k => exact execRdpal_sameButScratch ..
  | rdidx a => exact execRdidx_sameButScratch ..

/-- Settles O51: the host's next action is the same in both states, and no action reads a scratch
cell it has not written. -/
theorem scratchIsUnobservable : Obligations.ScratchIsUnobservable := by
  intro s m
  change sameButScratch (step s) (step (s.withScr m))
  unfold step
  rw [fetch_withScr, State.consume_withScr]
  cases fetch s with
  | idle => rfl
  | run i => exact exec_sameButScratch ..
  | illegal => rfl
  | reset => rfl
  | tooEarly => rfl

/-! ### A stream the sink accepts whole -/

theorem putBytes_of_completes (x : Sink) {bs : List Byte} {s : State}
    (h : s.sinkAnswer.completes bs.length = true) :
    putBytes x 0 bs s = (s.appendAll x bs, .accepted) := by
  cases ha : s.sinkAnswer with
  | acceptAll => exact putBytes_accepted x bs 0 s (by simp [ha, SinkAnswer.toByte]) (by simp [ha])
  | failAt j | silentAt j =>
    have hj : bs.length ≤ j := by simpa [ha, SinkAnswer.completes] using h
    refine putBytes_accepted x bs 0 s (fun i hi => ?_) (by simp [ha])
    simp [ha, SinkAnswer.toByte, (hi.trans_le hj).ne]
  | resetAt j =>
    have hj : bs.length < j := by simpa [ha, SinkAnswer.completes] using h
    refine putBytes_accepted x bs 0 s (fun i hi => ?_) (by simpa [ha] using hj.ne')
    simp [ha, SinkAnswer.toByte, (hi.trans hj).ne]

theorem putBytes_failAt (x : Sink) {bs : List Byte} {s : State} {j : Nat}
    (ha : s.sinkAnswer = .failAt j) (hj : j < bs.length) :
    putBytes x 0 bs s = (s.appendAll x (bs.take j), .failed) := by
  rw [putBytes_stopped x bs 0 j s hj]
  · simp [ha, SinkAnswer.toByte]
  · intro k hk
    simp [ha, SinkAnswer.toByte, hk.ne]
  · simp [ha, SinkAnswer.toByte]

/-- Conversely, only a stream accepted whole ends accepted. -/
theorem completes_of_putBytes_accepted {x : Sink} {bs : List Byte} {s : State}
    (h : (putBytes x 0 bs s).2 = .accepted) : s.sinkAnswer.completes bs.length = true := by
  have hstop : ∀ j < bs.length, (∀ k ≠ j, s.sinkAnswer.toByte k = .accepted) →
      s.sinkAnswer.toByte j = .accepted := by
    intro j hj hbefore
    by_contra hne
    rw [putBytes_stopped x bs 0 j s hj (fun k hk => hbefore _ (by omega)) (by simpa using hne)] at h
    exact hne (by simpa using h)
  cases ha : s.sinkAnswer with
  | acceptAll => rfl
  | failAt j | silentAt j =>
    by_contra hlt
    have hj : j < bs.length := by simpa [SinkAnswer.completes] using hlt
    simpa [ha, SinkAnswer.toByte] using hstop j hj (by simp +contextual [ha, SinkAnswer.toByte])
  | resetAt j =>
    by_contra hle
    have hj : j ≤ bs.length := by simpa [SinkAnswer.completes] using hle
    rcases hj.lt_or_eq with hj | rfl
    · simpa [ha, SinkAnswer.toByte] using hstop j hj (by simp +contextual [ha, SinkAnswer.toByte])
    · rw [putBytes_resetAtEnd x bs 0 s (by simpa using ha)] at h
      cases h

/-! ### The packed byte, bit by bit (R146, R150, R151) -/

@[simp] theorem getLsbD_bitOf (v : Byte) (n i : Nat) :
    (bitOf v n).getLsbD i = (decide (i = 0) && v.getLsbD n) := by
  unfold bitOf
  rw [BitVec.getLsbD_and, BitVec.getLsbD_ushiftRight, BitVec.getLsbD_one]
  by_cases hi : i = 0 <;> simp [hi]

/-- After `n` columns the accumulator holds column `n - 1 - i` in bit `i`. -/
theorem getLsbD_shiftIn (bits : Nat → Byte) (hbits : ∀ c i, i ≠ 0 → (bits c).getLsbD i = false)
    (n : Nat) {i : Nat} (hi : i < 8) :
    ((List.range n).foldl (fun (acc : Byte) c => (acc <<< 1) ^^^ bits c) 0#8).getLsbD i =
      (decide (i < n) && (bits (n - 1 - i)).getLsbD 0) := by
  induction n generalizing i with
  | zero => simp
  | succ n ih =>
    rw [List.range_succ, List.foldl_append, List.foldl_cons, List.foldl_nil, BitVec.getLsbD_xor,
      BitVec.getLsbD_shiftLeft]
    cases i with
    | zero => simp
    | succ i =>
      rw [hbits n (i + 1) (by omega), Nat.add_sub_cancel, ih (by omega)]
      simp [hi, Nat.sub_sub, Nat.add_comm]

theorem getLsbD_packedByte (bits : Nat → Byte) (hbits : ∀ c i, i ≠ 0 → (bits c).getLsbD i = false)
    {i : Nat} (hi : i < 8) : (packedByte bits).getLsbD i = (bits (7 - i)).getLsbD 0 := by
  unfold packedByte
  rw [getLsbD_shiftIn bits hbits Config.tile hi]
  simp [Config.tile, hi]

/-- Column `c`'s term in R150's sum has its bit, and no other, at `7 - c`. -/
theorem getLsbD_columnTerm (b : Bool) {c i : Nat} (hc : c < 8) (hi : i < 8) :
    ((if b then 1#8 else 0#8) <<< (7 - c)).getLsbD i = (decide (i = 7 - c) && b) := by
  cases b with
  | false => simp
  | true =>
    rw [if_pos rfl, BitVec.getLsbD_shiftLeft, BitVec.getLsbD_one]
    have hat : i = 7 - c ↔ ¬i < 7 - c ∧ i - (7 - c) = 0 := by omega
    simp [hi, hat, ← decide_not]

/-- R150's sum never carries: after `n` columns bit `i` is column `7 - i`, if that is among them. -/
theorem getLsbD_sumOfColumns (b : Nat → Bool) {n : Nat} (hn : n ≤ 8) {i : Nat} (hi : i < 8) :
    ((List.range n).foldl
      (fun acc c => acc + ((if b c then 1#8 else 0#8) <<< (7 - c))) 0#8).getLsbD i =
      (decide (7 - i < n) && b (7 - i)) := by
  induction n generalizing i with
  | zero => simp
  | succ n ih =>
    rw [List.range_succ, List.foldl_append, List.foldl_cons, List.foldl_nil,
      BitVec.add_eq_or_of_and_eq_zero, BitVec.getLsbD_or, ih (by omega) hi,
      getLsbD_columnTerm _ (by omega) hi]
    · by_cases heq : 7 - i = n
      · have hat : i = 7 - n := by omega
        rw [heq]
        simp [hat]
      · have hne : i ≠ 7 - n := by omega
        have hlt : 7 - i < n + 1 ↔ 7 - i < n := by omega
        simp [hne, hlt]
    · refine BitVec.eq_of_getLsbD_eq fun k hk => ?_
      rw [BitVec.getLsbD_and, ih (by omega) hk, getLsbD_columnTerm _ (by omega) hk]
      by_cases hat : k = 7 - n
      · have hlater : ¬7 - k < n := by omega
        simp [hlater]
      · simp [hat]

/-- Bit `i` of byte `n` of the sprite stream is one bit of one index (R150, R151). -/
theorem getLsbD_spriteByte (f : Nat → Byte) (n : Nat) {i : Nat} (hi : i < 8) :
    (spriteByte f n).getLsbD i =
      (f (128 * (n / 64 % 2) + 16 * (n / 2 % 8) + 8 * (n / 32 % 2) + (7 - i))).getLsbD
        (2 * (n / 16 % 2) + n % 2) := by
  unfold spriteByte
  have hrow : (n >>> 1) &&& 7 = n / 2 % 8 := Nat.and_two_pow_sub_one_eq_mod (n >>> 1) 3
  have hentry : (8 * (n / 32 / 2 % 2) + n / 2 % 8) * 16 + 8 * (n / 32 % 2) + (7 - i) =
      128 * (n / 64 % 2) + 16 * (n / 2 % 8) + 8 * (n / 32 % 2) + (7 - i) := by
    rw [Nat.div_div_eq_div_mul]
    omega
  rw [getLsbD_sumOfColumns _ (by omega) hi, hrow, ← hentry]
  simp [Nat.shiftRight_eq_div_pow, show 7 - i < 8 by omega]

/-! ### The tiles' streams are the closed form -/

theorem emitOrder_eq : emitOrder =
    (List.range 32).map fun k => (2 * (k / 16) + k % 2, k / 2 % 8) := by decide

theorem range_flatMap_tiles :
    ((List.range 4).flatMap fun t => (List.range 32).map (32 * t + ·)) = List.range 128 := by decide

/-- The 32 bytes of tile `t` are bytes `32 t ..` of the closed form (R149, R150). -/
theorem tileStream_eq (f : Nat → Byte) {t : Nat} (ht : t < 4) :
    tileStream ((List.range 256).map f) t =
      (List.range 32).map fun k => spriteByte f (32 * t + k) := by
  rw [tileStream, emitOrder_eq, List.map_map]
  refine List.map_congr_left fun k hk => BitVec.eq_of_getLsbD_eq fun i hi => ?_
  have hk : k < 32 := List.mem_range.mp hk
  have hentry : pixelEntry t (k / 2 % 8) (7 - i) = 128 * ((32 * t + k) / 64 % 2) +
      16 * ((32 * t + k) / 2 % 8) + 8 * ((32 * t + k) / 32 % 2) + (7 - i) := by
    rw [show pixelEntry t (k / 2 % 8) (7 - i) = _ from cell_eq ht]
    omega
  have hlt : pixelEntry t (k / 2 % 8) (7 - i) < 256 := pixelEntry_lt ht (by omega) (by omega)
  have hplane : 2 * ((32 * t + k) / 16 % 2) + (32 * t + k) % 2 = 2 * (k / 16) + k % 2 := by omega
  rw [getLsbD_spriteByte f _ hi, ← hentry, hplane, Function.comp_apply, getLsbD_packedByte _ _ hi]
  · rw [getLsbD_bitOf, decide_eq_true rfl, Bool.true_and]
    simp [hlt]
  · simp +contextual

theorem flatMap_tileStream_eq_spriteBytes (f : Nat → Byte) :
    (List.range 4).flatMap (tileStream ((List.range 256).map f)) = spriteBytes f := by
  have htiles : ∀ t ∈ List.range 4, tileStream ((List.range 256).map f) t =
      ((List.range 32).map (32 * t + ·)).map (spriteByte f) := fun t ht => by
    rw [tileStream_eq f (List.mem_range.mp ht), List.map_map, Function.comp_def]
  rw [List.flatMap_congr htiles, ← List.map_flatMap, range_flatMap_tiles, spriteBytes]

/-! ### The outcomes of `ENCODE` on a whole image -/

@[simp] theorem length_spriteBytes (f : Nat → Byte) : (spriteBytes f).length = 128 := by
  rw [spriteBytes, List.length_map, List.length_range]

/-- `ENCODE` on a whole image offers the closed form to sink `S` (R140, R150). -/
theorem exec_encode_eq_finishPut {s : State} {f : Nat → Byte} (herr : s.err = 0#3)
    (hplen : s.plen ≠ 0#8) (hwptr : s.wptr = 256#9) (hidx : ∀ a < 256, s.idx.read a = some (f a)) :
    ∃ m, exec .encode s = finishPut .S
      ((putBytes .S 0 (spriteBytes f) s).1.withScr m, (putBytes .S 0 (spriteBytes f) s).2)
      State.setEdone 128#16 := by
  obtain ⟨m, -, h⟩ := execEncode_eq herr hplen hwptr (State.frame_of_read hidx)
  rw [flatMap_tileStream_eq_spriteBytes] at h
  exact ⟨m, h⟩

/-- Settles O34: every byte of the closed form is accepted. -/
theorem encodePutsTheClosedForm : Obligations.EncodePutsTheClosedForm := by
  intro s f herr hplen hwptr hidx hanswer
  obtain ⟨m, h⟩ := exec_encode_eq_finishPut herr hplen hwptr hidx
  rw [putBytes_of_completes .S (by rwa [length_spriteBytes])] at h
  exact ⟨m, h⟩

/-- Settles O35: the bytes before `j` are appended, and `SINK_IO` is the first error. -/
theorem encodeSinkFailure : Obligations.EncodeSinkFailure := by
  intro s f j herr hplen hwptr hidx hanswer hj
  obtain ⟨m, h⟩ := exec_encode_eq_finishPut herr hplen hwptr hidx
  rw [putBytes_failAt .S hanswer (by rwa [length_spriteBytes])] at h
  exact ⟨m, h.trans (raise_of_err_zero .sinkIo herr)⟩

/-! ### What the bytes say about the indices (R151, R154, R157) -/

theorem getD_spriteBytes (f : Nat → Byte) {n : Nat} (hn : n < 128) :
    (spriteBytes f).getD n 0#8 = spriteByte f n := by
  simp [spriteBytes, hn]

/-- Every pixel's bit of every plane stands in the stream by itself: half `u`, side `v`, row `r` and
column `c` give the pixel, pair `h` and member `k` the plane (R151). -/
theorem getLsbD_getD_spriteBytes (f : Nat → Byte) {u v r c h k : Nat} (hu : u < 2) (hv : v < 2)
    (hr : r < 8) (hc : c < 8) (hh : h < 2) (hk : k < 2) :
    ((spriteBytes f).getD (32 * (2 * u + v) + 16 * h + 2 * r + k) 0#8).getLsbD (7 - c) =
      (f (128 * u + 16 * r + 8 * v + c)).getLsbD (2 * h + k) := by
  have hn : 32 * (2 * u + v) + 16 * h + 2 * r + k < 128 := by omega
  rw [getD_spriteBytes f hn, getLsbD_spriteByte f _ (by omega)]
  congr 2 <;> omega

/-- The stream depends on bits 0..3 of the 256 indices alone (R154). -/
theorem spriteBytes_congr {f g : Nat → Byte}
    (h : ∀ a < 256, ∀ bp < 4, (f a).getLsbD bp = (g a).getLsbD bp) : spriteBytes f = spriteBytes g := by
  refine List.map_congr_left fun n _ => BitVec.eq_of_getLsbD_eq fun i hi => ?_
  rw [getLsbD_spriteByte f n hi, getLsbD_spriteByte g n hi]
  exact h _ (by omega) _ (by omega)

theorem getLsbD_eq_of_and_0x0F_eq {v w : Byte} (h : v &&& 0x0F#8 = w &&& 0x0F#8) {bp : Nat}
    (hbp : bp < 4) : v.getLsbD bp = w.getLsbD bp := by
  have hmask : (0x0F#8).getLsbD bp = true := by
    revert bp; decide
  simpa [hmask] using congrArg (BitVec.getLsbD · bp) h

/-- Settles O38: the two streams are the same closed form, by O34. -/
theorem indicesAbove15AreTruncated : Obligations.IndicesAbove15AreTruncated := by
  intro s m f g herr hplen hwptr hanswer hf hg hfg
  obtain ⟨scr, hs⟩ := encodePutsTheClosedForm s f herr hplen hwptr hf hanswer
  obtain ⟨scr', hm⟩ := encodePutsTheClosedForm { s with idx := m } g herr hplen hwptr hg hanswer
  have hbytes : spriteBytes f = spriteBytes g :=
    spriteBytes_congr fun a ha bp hbp => getLsbD_eq_of_and_0x0F_eq (hfg a ha) hbp
  exact ⟨_, _, hs, hm, by simp [hbytes], rfl, herr, herr⟩

/-- An image of ones fills every row of bitplane 0 and leaves the other planes empty. -/
theorem spriteByte_one (n : Nat) :
    spriteByte (fun _ => 1#8) n = if n / 16 % 2 = 0 ∧ n % 2 = 0 then 0xFF#8 else 0x00#8 := by
  refine BitVec.eq_of_getLsbD_eq fun i hi => ?_
  rw [getLsbD_spriteByte _ n hi, BitVec.getLsbD_one]
  have hplane : 2 * (n / 16 % 2) + n % 2 = 0 ↔ n / 16 % 2 = 0 ∧ n % 2 = 0 := by omega
  simp only [hplane]
  split <;> rename_i h
  · have hset : (0xFF#8).getLsbD i = true := by
      revert i; decide
    simp [h, hset]
  · simp [h]

/-- Settles O39: bytes 0, 2, .. 14 of each tile are full, the other 24 are empty. -/
theorem uniformImageStream : Obligations.UniformImageStream := by
  intro s herr hplen hwptr hidx hanswer
  obtain ⟨scr, hs⟩ := encodePutsTheClosedForm s _ herr hplen hwptr hidx hanswer
  refine ⟨_, hs, ?_⟩
  have hbytes : spriteBytes (fun _ => 1#8) = _ := List.map_congr_left fun n _ => spriteByte_one n
  rw [hbytes]
  rfl

/-- A response other than `OK 128` or none at all tells every other end of `ENCODE` apart. -/
theorem sinkS_of_encode_answered {s t : State} {f : Nat → Byte} (herr : s.err = 0#3)
    (hidx : ∀ a < 256, s.idx.read a = some (f a)) (h : exec .encode s = .next t)
    (hresp : t.responses = s.responses ++ [128#32]) : t.sinkS = s.sinkS ++ spriteBytes f := by
  rcases execEncode_next h with ⟨hne, -⟩ | ⟨-, -, rfl⟩ | ⟨-, -, -, rfl⟩ |
    ⟨-, -, -, frame, pre, m, hframe, -, -, ⟨hpre, rfl⟩ | rfl | ⟨rfl, -⟩⟩
  · exact absurd herr hne
  · simp [responseWord, Status.code] at hresp
  · simp [responseWord, Status.code] at hresp
  · obtain rfl : (List.range 256).map f = frame := by
      simpa [State.frame_of_read hidx] using hframe
    simp [hpre, flatMap_tileStream_eq_spriteBytes]
  · simp [responseWord, Status.code] at hresp
  · simp at hresp

/-- Settles O37: the response says the whole closed form was put, and each pixel's bits stand in it. -/
theorem spriteStreamUnpacks : Obligations.SpriteStreamUnpacks := by
  intro s t f herr hidx h hresp a ha bp hbp
  have hbit := getLsbD_getD_spriteBytes f (u := a / 128) (v := a % 16 / 8) (r := a / 16 % 8)
    (c := a % 8) (h := bp / 2) (k := bp % 2) (by omega) (by omega) (by omega) (by omega) (by omega)
    (by omega)
  have hentry : 128 * (a / 128) + 16 * (a / 16 % 8) + 8 * (a % 16 / 8) + a % 8 = a := by omega
  rw [hentry, Nat.div_add_mod] at hbit
  rw [sinkS_of_encode_answered herr hidx h hresp, List.drop_left, hbit]

/-! ### A second `ENCODE` (R156) -/

theorem State.read_of_frame {s : State} {frame : List Byte} (h : s.frame = .ok frame) :
    ∀ a < 256, s.idx.read a = some (frame.getD a 0#8) := by
  unfold State.frame at h
  obtain ⟨hlength, hread⟩ := readUpto_ok h
  intro a ha
  have ha : a < frame.length := hlength.symm ▸ ha
  simp [hread a ha, ha]

/-- An `ENCODE` that leaves no error and a palette ran on a whole image, and the sink accepted its
stream. -/
theorem encode_ran_of_next {s t : State} (h : exec .encode s = .next t) (herr : t.err = 0#3)
    (hplen : t.plen ≠ 0#8) :
    s.err = 0#3 ∧ s.plen ≠ 0#8 ∧ s.wptr = 256#9 ∧ s.sinkAnswer.completes 128 = true ∧
      ∃ f : Nat → Byte, ∀ a < 256, s.idx.read a = some (f a) := by
  rcases execEncode_next h with ⟨hne, rfl⟩ | ⟨hs, -, rfl⟩ | ⟨hs, -, -, rfl⟩ |
    ⟨hs, hp, hw, frame, -, -, hframe, -⟩
  · exact absurd herr hne
  · simp [hs, ErrKind.code] at herr
  · simp [hs, ErrKind.code] at herr
  · have hidx := State.read_of_frame hframe
    refine ⟨hs, hp, hw, ?_, _, hidx⟩
    obtain ⟨m, hm⟩ := exec_encode_eq_finishPut hs hp hw hidx
    rcases finishPut_next (hm.symm.trans h) with ⟨hput, -⟩ | ⟨-, rfl⟩ | ⟨-, rfl⟩
    · simpa using completes_of_putBytes_accepted hput
    · rw [State.answer_err, State.latch_err] at herr
      split at herr
      · cases herr
      · contradiction
    · exact absurd rfl hplen

/-- Settles O40: by O34 the first `ENCODE` leaves all it read as it was, so O34 holds of the second. -/
theorem encodeRepeats : Obligations.EncodeRepeats := by
  intro s t h herr hplen
  obtain ⟨hs, hp, hw, hanswer, f, hidx⟩ := encode_ran_of_next h herr hplen
  obtain ⟨scr, ht⟩ := encodePutsTheClosedForm s f hs hp hw hidx hanswer
  replace ht := Host.Outcome.next.inj (h.symm.trans ht)
  obtain ⟨scr', hu⟩ := encodePutsTheClosedForm t f herr hplen (ht ▸ hw) (ht ▸ hidx) (ht ▸ hanswer)
  subst ht
  exact ⟨rfl, rfl, rfl, rfl, _, spriteBytes f, hu, length_spriteBytes f, rfl, rfl⟩

end Sys2Proof.Machine

/-! ## The palette writer (43_palette_writer.md): the entry tests, the palette stream, the ends of `WRPAL` -/

namespace Sys2Proof.Machine

/-! ### The entry tests `WRPAL` and `ENCODE` share (R209) -/

section
variable {s : State} (run : Host.Outcome State Fault Refusal)

theorem whenImageComplete_of_plen_zero (herr : s.err = 0#3) (hplen : s.plen = 0#8) :
    whenImageComplete s run = raise .empty s := by
  simp [whenImageComplete, herr, hplen]

theorem whenImageComplete_of_wptr_ne (herr : s.err = 0#3) (hplen : s.plen ≠ 0#8)
    (hwptr : s.wptr ≠ 256#9) : whenImageComplete s run = raise .shape s := by
  simp [whenImageComplete, herr, hplen, hwptr]

end

theorem exec_output_eq_whenImageComplete {i : Instr} (s : State) (hi : i = .wrpal ∨ i = .encode) :
    ∃ run, exec i s = whenImageComplete s run := by
  rcases hi with rfl | rfl
  · exact ⟨_, rfl⟩
  · exact ⟨_, rfl⟩

/-- Settles O30: both commands test the image before they read or put anything, the palette first. -/
theorem outputNeedsAWholeImage : Obligations.OutputNeedsAWholeImage := by
  intro s i herr hi
  obtain ⟨run, hrun⟩ := exec_output_eq_whenImageComplete s hi
  rw [hrun]
  refine ⟨fun hplen => ?_, fun hplen hwptr => ?_⟩
  · rw [whenImageComplete_of_plen_zero run herr hplen]
    exact raise_of_err_zero .empty herr
  · rw [whenImageComplete_of_wptr_ne run herr hplen hwptr]
    exact raise_of_err_zero .shape herr

/-! ### The palette stream is R171's byte formula -/

theorem littleEndian_eq_extractLsb' (v : Colour) :
    littleEndian v = [v.extractLsb' 0 8, v.extractLsb' 8 8] := by
  have hbyte : ∀ w : Colour, (w &&& 0xFF#16).setWidth 8 = w.extractLsb' 0 8 := fun w => by
    rw [BitVec.setWidth_and, show (0xFF#16).setWidth 8 = BitVec.allOnes 8 from rfl,
      BitVec.and_allOnes, BitVec.setWidth_eq_extractLsb' (by decide)]
  have hhigh : (v >>> 8).extractLsb' 0 8 = v.extractLsb' 8 8 :=
    BitVec.eq_of_getLsbD_eq fun i hi => by simp [hi]
  rw [littleEndian, hbyte, hbyte, hhigh]

/-- One more colour adds its two bytes at the end. -/
theorem paletteBytes_succ (p : Nat → Colour) (n : Nat) :
    paletteBytes p (n + 1) = paletteBytes p n ++ littleEndian (p n) := by
  have hlow : paletteByte p (2 + 2 * n) = (p n).extractLsb' 0 8 := by
    simp [paletteByte, show (2 + 2 * n) / 2 = n + 1 by omega]
  have hhigh : paletteByte p (2 + 2 * n + 1) = (p n).extractLsb' 8 8 := by
    simp [paletteByte, show (2 + 2 * n + 1) / 2 = n + 1 by omega,
      show (2 + 2 * n + 1) % 2 = 1 by omega]
  rw [paletteBytes, show 2 + 2 * (n + 1) = 2 + 2 * n + 1 + 1 by omega, List.range_succ,
    List.range_succ, littleEndian_eq_extractLsb']
  simp [paletteBytes, hlow, hhigh]

theorem paletteStream_map_range (p : Nat → Colour) (n : Nat) :
    paletteStream ((List.range n).map p) = paletteBytes p n := by
  induction n with
  | zero =>
    rw [paletteStream, littleEndian_eq_extractLsb']
    rfl
  | succ n ih =>
    rw [paletteBytes_succ, ← ih]
    simp [paletteStream, List.range_succ]

@[simp] theorem length_paletteBytes (p : Nat → Colour) (n : Nat) :
    (paletteBytes p n).length = 2 + 2 * n := by
  rw [paletteBytes, List.length_map, List.length_range]

/-! ### The outcomes of `WRPAL` on a whole image -/

/-- At most 255 colours, so the length of the stream fits the response's 16 bits (R170). -/
theorem responseWord_paletteLength (plen : Byte) :
    responseWord .ok (2#16 + 2#16 * plen.setWidth 16) = BitVec.ofNat 32 (2 + 2 * plen.toNat) := by
  rw [responseWord_ok_setWidth]
  apply BitVec.eq_of_toNat_eq
  simp only [BitVec.toNat_setWidth, BitVec.toNat_add, BitVec.toNat_mul, BitVec.toNat_ofNat]
  omega

/-- `WRPAL` on a whole image offers R171's bytes to sink `P` (R170). -/
theorem exec_wrpal_eq_finishPut {s : State} {p : Nat → Colour} (herr : s.err = 0#3)
    (hplen : s.plen ≠ 0#8) (hwptr : s.wptr = 256#9)
    (hpal : ∀ k < s.plen.toNat, s.pal.read k = some (p k)) :
    exec .wrpal s = finishPut .P (putBytes .P 0 (paletteBytes p s.plen.toNat) s) State.setPdone
      (2#16 + 2#16 * s.plen.setWidth 16) := by
  simp [exec, execWrpal, whenImageComplete_pass _ herr hplen hwptr, State.palette_of_read hpal,
    paletteStream_map_range]

/-- Settles O31: every byte of the palette stream is accepted. -/
theorem wrpalPutsThePaletteStream : Obligations.WrpalPutsThePaletteStream := by
  intro s p herr hplen hwptr hpal hanswer
  rw [exec_wrpal_eq_finishPut herr hplen hwptr hpal,
    putBytes_of_completes .P (by rwa [length_paletteBytes]), ← responseWord_paletteLength]
  rfl

/-- Settles O32: the bytes before `j` are appended, and `SINK_IO` is the first error. -/
theorem wrpalSinkFailure : Obligations.WrpalSinkFailure := by
  intro s p j herr hplen hwptr hpal hanswer hj
  rw [exec_wrpal_eq_finishPut herr hplen hwptr hpal,
    putBytes_failAt .P hanswer (by rwa [length_paletteBytes])]
  exact raise_of_err_zero .sinkIo herr

/-! ### A second `WRPAL` (R176) -/

theorem State.read_of_palette {s : State} {pal : List Colour} (h : s.palette = .ok pal) :
    ∀ k < s.plen.toNat, s.pal.read k = some (pal.getD k 0#16) := by
  obtain ⟨hlength, hread⟩ := readUpto_ok h
  intro k hk
  have hk : k < pal.length := hlength.symm ▸ hk
  simp [hread k hk, hk]

theorem State.latch_err_ne_zero (s : State) (k : ErrKind) : (s.latch k).err ≠ 0#3 := by
  by_cases h : s.err = 0#3
  · cases k <;> simp [h, ErrKind.code]
  · simp [h]

/-- An output command that leaves no error and a palette had its bytes accepted: a failed byte
latches `SINK_IO`, and a reset empties the palette. -/
theorem accepted_of_finishPut_next {x : Sink} {r : State × PutAnswer} {done : State → State}
    {val : Colour} {t : State} (h : finishPut x r done val = .next t) (herr : t.err = 0#3)
    (hplen : t.plen ≠ 0#8) : r.2 = .accepted := by
  rcases finishPut_next h with ⟨hput, -⟩ | ⟨-, rfl⟩ | ⟨-, rfl⟩
  · exact hput
  · exact absurd herr (r.1.latch_err_ne_zero .sinkIo)
  · exact absurd rfl hplen

/-- A `WRPAL` that leaves no error and a palette ran on a whole image, and the sink accepted its
stream. -/
theorem wrpal_ran_of_next {s t : State} (h : exec .wrpal s = .next t) (herr : t.err = 0#3)
    (hplen : t.plen ≠ 0#8) :
    s.err = 0#3 ∧ s.plen ≠ 0#8 ∧ s.wptr = 256#9 ∧
      s.sinkAnswer.completes (2 + 2 * s.plen.toNat) = true ∧
      ∃ p : Nat → Colour, ∀ k < s.plen.toNat, s.pal.read k = some (p k) := by
  rcases execWrpal_next h with ⟨hne, rfl⟩ | ⟨-, -, rfl⟩ | ⟨-, -, -, rfl⟩ |
    ⟨hs, hp, hw, pal, -, hpal, -⟩
  · exact absurd herr hne
  · exact absurd herr (s.latch_err_ne_zero .empty)
  · exact absurd herr (s.latch_err_ne_zero .shape)
  · have hread := State.read_of_palette hpal
    have hput := (exec_wrpal_eq_finishPut hs hp hw hread).symm.trans h
    have hanswer := completes_of_putBytes_accepted (accepted_of_finishPut_next hput herr hplen)
    exact ⟨hs, hp, hw, by rwa [length_paletteBytes] at hanswer, _, hread⟩

/-- Settles O41: by O31 the first `WRPAL` leaves all it read as it was, so O31 holds of the second. -/
theorem wrpalRepeats : Obligations.WrpalRepeats := by
  intro s t h herr hplen
  obtain ⟨hs, hp, hw, hanswer, p, hpal⟩ := wrpal_ran_of_next h herr hplen
  have ht := Host.Outcome.next.inj (h.symm.trans (wrpalPutsThePaletteStream s p hs hp hw hpal hanswer))
  have hu := wrpalPutsThePaletteStream t p herr hplen (ht ▸ hw) (ht ▸ hpal) (ht ▸ hanswer)
  subst ht
  exact ⟨rfl, rfl, rfl, hs, _, paletteBytes p s.plen.toNat, hu, rfl, rfl⟩

end Sys2Proof.Machine

/-! ## The read-out commands (44_system_readout.md): `RDREG`, `RDPAL`, `RDIDX` -/

/-! ### The command words of format N -/

namespace Sys2Proof

/-- Format N as R84 draws it: the opcode byte and the operand, each shifted to its place. -/
theorem formatN_eq_or (op : BitVec 4) (n : Byte) :
    formatN op n = (op ++ 0#4).setWidth 32 <<< 24 ||| n.setWidth 32 := by
  calc formatN op n
    _ = (op ++ 0#4).setWidth 32 <<< 24 ||| (0#16).setWidth 32 <<< 8 ||| n.setWidth 32 :=
      (BitVec.setWidth_eq _).symm.trans BitVec.setWidth_append_append_eq_shiftLeft_setWidth_or
    _ = (op ++ 0#4).setWidth 32 <<< 24 ||| n.setWidth 32 := by simp

@[simp] theorem fieldLow_formatN (op : BitVec 4) (n : Byte) : fieldLow (formatN op n) = n :=
  BitVec.extractLsb'_append_eq_right

/-- A word of a format N opcode decodes to what the one row of its opcode builds from it. -/
theorem decode_formatN {op : BitVec 4} {n : Byte} {i : Instr} (hop : formatOf op = some .N)
    (hbuild : ∀ row ∈ opcodeRows, opField row.pattern = op → row.build (formatN op n) = i) :
    decode (formatN op n) = .ok i := by
  have hlegal : legalWord (formatN op n) = true :=
    (legalWord_iff _).mpr ⟨.N, by simp [hop, operandLegal]⟩
  exact decode_eq_of_build hlegal (by simpa using hbuild)

theorem decode_encode_rdreg (n : Byte) : decode (encode (.rdreg n)) = .ok (.rdreg n) :=
  decode_formatN rfl (by simp [opcodeRows, opField])

theorem decode_encode_rdpal (k : Byte) : decode (encode (.rdpal k)) = .ok (.rdpal k) :=
  decode_formatN rfl (by simp [opcodeRows, opField])

theorem decode_encode_rdidx (a : Byte) : decode (encode (.rdidx a)) = .ok (.rdidx a) :=
  decode_formatN rfl (by simp [opcodeRows, opField])

end Sys2Proof

namespace Sys2Proof.Machine

/-! ### The two answers of a read-out command -/

theorem respond_ok_eq (v : Colour) (s : State) :
    respond .ok v s = .next { s with responses := s.responses ++ [0#16 ++ v] } := by
  rw [respond_eq, State.answer, responseWord_ok]

/-- A narrow value comes back zero-extended to the whole word. -/
theorem respond_ok_setWidth {w : Nat} (hw : w ≤ 16) (v : BitVec w) (s : State) :
    respond .ok (v.setWidth 16) s =
      .next { s with responses := s.responses ++ [v.setWidth 32] } := by
  rw [respond_eq, State.answer, responseWord_ok_setWidth, BitVec.setWidth_setWidth (by omega)]

theorem raise_illegalCmd (s : State) :
    raise .illegalCmd s = .next { s with
      err := if s.err = 0#3 then 5#3 else s.err,
      responses := s.responses ++ [0x00010005#32] } := by
  rw [raise_eq, ← responseWord_illegalCmd]
  rfl

/-! ### `RDREG` -/

/-- The numbers above 4 name no register (R29). -/
theorem State.reg_of_four_lt (s : State) {n : Byte} (h : 4 < n.toNat) : s.reg n = none := by
  obtain ⟨k, hk⟩ := Nat.exists_eq_add_of_le' h
  simp [State.reg, hk]

theorem exec_rdreg_of_reg {s : State} {n : Byte} {v : Colour} (h : s.reg n = some v) :
    exec (.rdreg n) s = respond .ok v s := by
  simp [exec, execRdreg, h]

theorem exec_rdreg_of_no_reg {s : State} {n : Byte} (h : s.reg n = none) :
    exec (.rdreg n) s = raise .illegalCmd s := by
  simp [exec, execRdreg, h]

/-- Settles O44: each number up to 4 names its register, and no other number names one. -/
theorem rdregReturnsTheRegister : Obligations.RdregReturnsTheRegister := by
  refine fun s n => ⟨?_, ?_, ?_, ?_, ?_, ?_, fun hn => ?_⟩
  · have hword : 0x60000000#32 ||| n.setWidth 32 = encode (.rdreg n) := (formatN_eq_or 6#4 n).symm
    rw [hword, decode_encode_rdreg]
  · rintro rfl
    exact (exec_rdreg_of_reg rfl).trans (respond_ok_eq s.status s)
  · rintro rfl
    exact (exec_rdreg_of_reg rfl).trans (respond_ok_setWidth (by decide) s.err s)
  · rintro rfl
    exact (exec_rdreg_of_reg rfl).trans (respond_ok_setWidth (by decide) s.plen s)
  · rintro rfl
    exact (exec_rdreg_of_reg rfl).trans (respond_ok_setWidth (by decide) s.wptr s)
  · rintro rfl
    rw [exec_rdreg_of_reg rfl, ← respond_ok_setWidth le_rfl, BitVec.setWidth_eq]
  · exact (exec_rdreg_of_no_reg (s.reg_of_four_lt hn)).trans (raise_illegalCmd s)

/-! ### `RDPAL` and `RDIDX` -/

theorem exec_rdpal_of_read {s : State} {k : Byte} {v : Colour} (hk : k.toNat < s.plen.toNat)
    (hv : s.pal.read k.toNat = some v) : exec (.rdpal k) s = respond .ok v s := by
  have hread : s.palEntry k.toNat = .ok v := (readEntry_ok_iff ..).mpr hv
  simp [exec, execRdpal, hk.not_ge, hread]

theorem exec_rdpal_of_le {s : State} {k : Byte} (hk : s.plen.toNat ≤ k.toNat) :
    exec (.rdpal k) s = raise .illegalCmd s :=
  if_pos hk

theorem exec_rdidx_of_read {s : State} {a v : Byte} (ha : a.toNat < s.wptr.toNat)
    (hv : s.idx.read a.toNat = some v) : exec (.rdidx a) s = respond .ok (v.setWidth 16) s := by
  have hread : s.idxEntry a.toNat = .ok v := (readEntry_ok_iff ..).mpr hv
  simp [exec, execRdidx, ha.not_ge, hread]

theorem exec_rdidx_of_le {s : State} {a : Byte} (ha : s.wptr.toNat ≤ a.toNat) :
    exec (.rdidx a) s = raise .illegalCmd s :=
  if_pos ha

/-- Settles O45: a position below `PLEN` reads its entry, and no other position is written. -/
theorem rdpalReturnsTheColour : Obligations.RdpalReturnsTheColour := by
  refine fun s k => ⟨?_, fun v hk hv => ?_, fun hk => ?_⟩
  · have hword : 0x70000000#32 ||| k.setWidth 32 = encode (.rdpal k) := (formatN_eq_or 7#4 k).symm
    rw [hword, decode_encode_rdpal]
  · exact (exec_rdpal_of_read hk hv).trans (respond_ok_eq v s)
  · exact (exec_rdpal_of_le hk).trans (raise_illegalCmd s)

/-- Settles O46: an entry below `WPTR` is read and zero-extended, and no other entry is written. -/
theorem rdidxReturnsTheIndex : Obligations.RdidxReturnsTheIndex := by
  refine fun s a => ⟨?_, fun v ha hv => ?_, fun ha => ?_⟩
  · have hword : 0x80000000#32 ||| a.setWidth 32 = encode (.rdidx a) := (formatN_eq_or 8#4 a).symm
    rw [hword, decode_encode_rdidx]
  · exact (exec_rdidx_of_read ha hv).trans (respond_ok_setWidth (by decide) v s)
  · exact (exec_rdidx_of_le ha).trans (raise_illegalCmd s)

end Sys2Proof.Machine

/-! ## Exceptions (60_exceptions.md): refusal, reads at any `ERR`, the error entry, precise errors -/

namespace Sys2Proof.Machine

/-! ### The error entry (R210) -/

/-- Settles O27: the error entry and the codes as the model writes them. -/
theorem errorEntry : Obligations.ErrorEntry :=
  ⟨fun k s => raise_eq k s, rfl, rfl, rfl, rfl, rfl⟩

/-- The first error wins (R206). -/
theorem State.latch_of_err_ne_zero {s : State} (k : ErrKind) (herr : s.err ≠ 0#3) :
    s.latch k = s := by
  rw [State.latch, if_neg herr]

/-! ### While an error is latched (R207) -/

/-- The test for a latched error is the first of `PIX`, `WRPAL` and `ENCODE` (R209). -/
theorem exec_eq_refuse_of_err_ne_zero {s : State} {i : Instr} (herr : s.err ≠ 0#3)
    (hi : (∃ r g b, i = .pix r g b) ∨ i = .wrpal ∨ i = .encode) : exec i s = refuse s := by
  rcases hi with ⟨r, g, b, rfl⟩ | hi
  · exact if_pos herr
  · obtain ⟨run, hrun⟩ := exec_output_eq_whenImageComplete s hi
    exact hrun.trans (if_pos herr)

/-- Settles O25: the test for a latched error comes before every effect. -/
theorem refusedWhileErrorLatched : Obligations.RefusedWhileErrorLatched := by
  intro s herr i hi
  rw [exec_eq_refuse_of_err_ne_zero herr hi]
  exact refuse_eq s

/-- With an error latched, a command that needs the image answers that it is refused. -/
theorem execImage_next_of_err_ne_zero {s t : State} {i : Instr} (herr : s.err ≠ 0#3)
    (hi : (∃ r g b, i = .pix r g b) ∨ i = .wrpal ∨ i = .encode) (h : exec i s = .next t) :
    t = s.answer .refused (s.err.setWidth 16) :=
  Host.Outcome.next.inj (h.symm.trans (exec_eq_refuse_of_err_ne_zero herr hi))

/-- With an error latched, a read-out command only responds. -/
theorem execRead_next_of_err_ne_zero {s t : State} {i : Instr} (herr : s.err ≠ 0#3)
    (hi : (∃ n, i = .rdreg n) ∨ (∃ k, i = .rdpal k) ∨ ∃ a, i = .rdidx a) (h : exec i s = .next t) :
    ∃ st v, t = s.answer st v := by
  rcases execRead_next h hi with ⟨v, rfl⟩ | rfl
  · exact ⟨_, _, rfl⟩
  · exact ⟨_, _, by rw [State.latch_of_err_ne_zero _ herr]⟩

/-- With an error latched, every command but `CLR` responds and writes at most `QOUT`. -/
theorem exec_next_of_err_ne_zero {i : Instr} {s t : State} (herr : s.err ≠ 0#3) (hi : i ≠ .clr)
    (h : exec i s = .next t) : ∃ q st v, t = ({ s with qout := q } : State).answer st v := by
  cases i with
  | clr => exact absurd rfl hi
  | quant r g b => exact ⟨_, _, _, execQuant_next h⟩
  | pix r g b => exact ⟨s.qout, _, _, execImage_next_of_err_ne_zero herr (.inl ⟨r, g, b, rfl⟩) h⟩
  | wrpal => exact ⟨s.qout, _, _, execImage_next_of_err_ne_zero herr (.inr (.inl rfl)) h⟩
  | encode => exact ⟨s.qout, _, _, execImage_next_of_err_ne_zero herr (.inr (.inr rfl)) h⟩
  | rdreg n => exact ⟨s.qout, execRead_next_of_err_ne_zero herr (.inl ⟨n, rfl⟩) h⟩
  | rdpal k => exact ⟨s.qout, execRead_next_of_err_ne_zero herr (.inr (.inl ⟨k, rfl⟩)) h⟩
  | rdidx a => exact ⟨s.qout, execRead_next_of_err_ne_zero herr (.inr (.inr ⟨a, rfl⟩)) h⟩

/-- Settles O28: a command under a latched error writes at most `QOUT` and the response. -/
theorem firstErrorStaysUntilClr : Obligations.FirstErrorStaysUntilClr := by
  intro i s t herr hi h
  obtain ⟨q, st, v, rfl⟩ := exec_next_of_err_ne_zero herr hi h
  exact ⟨rfl, rfl, rfl, rfl, rfl, rfl, rfl⟩

/-! ### Reads at any `ERR` (R184) -/

/-- The state with another `ERR`. -/
def State.withErr (s : State) (e : BitVec 3) : State := { s with err := e }

/-- Of the registers only `STATUS` and `ERR` read the error (R28, R29). -/
theorem State.reg_withErr (s : State) (e : BitVec 3) {n : Byte} (hn : 2 ≤ n.toNat) :
    (s.withErr e).reg n = s.reg n := by
  obtain ⟨k, hk⟩ := Nat.exists_eq_add_of_le' hn
  unfold State.reg
  rw [hk]
  match k with
  | 0 | 1 | 2 | k + 3 => rfl

/-- What a read-out command does with a value, or without one, it does at every `ERR`. -/
def ReadsAtEveryErr (i : Instr) (s : State) : Prop :=
  (∃ v, ∀ e, exec i (s.withErr e) = respond .ok v (s.withErr e)) ∨
    (∀ e, exec i (s.withErr e) = raise .illegalCmd (s.withErr e)) ∨
    ∃ f, ∀ e, exec i (s.withErr e) = .fault f

theorem rdreg_readsAtEveryErr (s : State) {n : Byte} (hn : 2 ≤ n.toNat) :
    ReadsAtEveryErr (.rdreg n) s := by
  cases hv : s.reg n with
  | some v => exact .inl ⟨v, fun e => exec_rdreg_of_reg ((s.reg_withErr e hn).trans hv)⟩
  | none => exact .inr (.inl fun e => exec_rdreg_of_no_reg ((s.reg_withErr e hn).trans hv))

theorem rdpal_readsAtEveryErr (s : State) (k : Byte) : ReadsAtEveryErr (.rdpal k) s := by
  rcases Nat.lt_or_ge k.toNat s.plen.toNat with hk | hk
  · cases hv : s.pal.read k.toNat with
    | some v => exact .inl ⟨v, fun e => exec_rdpal_of_read (s := s.withErr e) hk hv⟩
    | none =>
      exact .inr (.inr ⟨_, fun e => (readOfAnUnwrittenEntryStops (s.withErr e) k).1 hk hv⟩)
  · exact .inr (.inl fun e => exec_rdpal_of_le (s := s.withErr e) hk)

theorem rdidx_readsAtEveryErr (s : State) (a : Byte) : ReadsAtEveryErr (.rdidx a) s := by
  rcases Nat.lt_or_ge a.toNat s.wptr.toNat with ha | ha
  · cases hv : s.idx.read a.toNat with
    | some v => exact .inl ⟨_, fun e => exec_rdidx_of_read (s := s.withErr e) ha hv⟩
    | none =>
      exact .inr (.inr ⟨_, fun e => (readOfAnUnwrittenEntryStops (s.withErr e) a).2 ha hv⟩)
  · exact .inr (.inl fun e => exec_rdidx_of_le (s := s.withErr e) ha)

/-- The outcome at `ERR = 0` answers the same response and leaves the same state but for `ERR`. -/
theorem ReadsAtEveryErr.next {i : Instr} {s t : State} (hread : ReadsAtEveryErr i s)
    (h : exec i s = .next t) :
    ∃ u, exec i (s.withErr 0#3) = .next u ∧ t.withErr 0#3 = u.withErr 0#3 := by
  rcases hread with ⟨v, hv⟩ | hraise | ⟨f, hf⟩
  · cases (hv s.err).symm.trans h
    exact ⟨_, hv 0#3, rfl⟩
  · cases (hraise s.err).symm.trans h
    exact ⟨_, hraise 0#3, rfl⟩
  · cases (hf s.err).symm.trans h

/-- Settles O26: `CLR` resets whatever it finds, `QUANT` reads its operands alone, and no operand of
the reads is `ERR`. -/
theorem readsRunWhileErrorLatched : Obligations.ReadsRunWhileErrorLatched := by
  intro s i hi t h
  rcases hi with rfl | ⟨r, g, b, rfl⟩ | ⟨n, rfl, hn⟩ | ⟨k, rfl⟩ | ⟨a, rfl⟩
  · exact ⟨t, h, rfl⟩
  · exact ⟨_, rfl, by rw [execQuant_next h]; rfl⟩
  · exact (rdreg_readsAtEveryErr s hn).next h
  · exact (rdpal_readsAtEveryErr s k).next h
  · exact (rdidx_readsAtEveryErr s a).next h

/-! ### Precise errors (R208) -/

theorem Status.code_injective : Function.Injective Status.code := by
  intro st st' h
  cases st <;> cases st' <;> revert h <;> decide

theorem responseWord_inj {st st' : Status} {v v' : Colour}
    (h : responseWord st v = responseWord st' v') : st = st' ∧ v = v' := by
  constructor
  · exact Status.code_injective (by simpa using congrArg (BitVec.extractLsb' 16 2) h)
  · simpa using congrArg (BitVec.extractLsb' 0 16) h

/-- The states in which command `i`, begun in `s`, raises `k`: `s` itself, or for `SINK_IO` the one
in which the sink has accepted the bytes before the failed one. -/
def RaisedAt (i : Instr) (s : State) (k : ErrKind) (u : State) : Prop :=
  u = s ∨ k = .sinkIo ∧
    ((i = .wrpal ∧ ∃ pre, u = s.appendAll .P pre) ∨
      (i = .encode ∧ ∃ pre m, u = { s.appendAll .S pre with scr := m }))

theorem RaisedAt.responses_eq {i : Instr} {s u : State} {k : ErrKind} (hu : RaisedAt i s k u) :
    u.responses = s.responses := by
  rcases hu with rfl | ⟨-, ⟨-, pre, rfl⟩ | ⟨-, pre, m, rfl⟩⟩
  · rfl
  · exact s.appendAll_responses .P pre
  · exact s.appendAll_responses .S pre

/-- The ends of command `i`, begun in `s`. -/
inductive CommandEnd (i : Instr) (s : State) : State → Prop where
  /-- A reset, no response (R240). -/
  | abandoned {t : State} (hresp : t.responses = s.responses) : CommandEnd i s t
  /-- A response that is not `ERROR`. -/
  | answered {u : State} {st : Status} (v : Colour) (hresp : u.responses = s.responses)
      (hst : st ≠ .error) : CommandEnd i s (u.answer st v)
  /-- The error entry (R210). -/
  | raised {u : State} (k : ErrKind) (hu : RaisedAt i s k u) :
      CommandEnd i s ((u.latch k).answer .error (k.code.setWidth 16))

theorem execPix_end {r g b : Byte} {s t : State} (h : execPix r g b s = .next t) :
    CommandEnd (.pix r g b) s t := by
  rcases execPix_next h with ⟨-, rfl⟩ | ⟨-, -, rfl⟩ | ⟨-, -, rfl⟩ | ⟨-, -, k, -, -, rfl⟩ |
    ⟨-, -, -, -, rfl⟩
  · exact .answered _ rfl (by decide)
  · exact .raised .shape (.inl rfl)
  · exact .raised .capacity (.inl rfl)
  · exact .answered _ rfl (by decide)
  · exact .answered _ rfl (by decide)

theorem execWrpal_end {s t : State} (h : execWrpal s = .next t) : CommandEnd .wrpal s t := by
  rcases execWrpal_next h with ⟨-, rfl⟩ | ⟨-, -, rfl⟩ | ⟨-, -, -, rfl⟩ |
    ⟨-, -, -, pal, pre, -, -, ⟨-, rfl⟩ | rfl | ⟨rfl, -⟩⟩
  · exact .answered _ rfl (by decide)
  · exact .raised .empty (.inl rfl)
  · exact .raised .shape (.inl rfl)
  · exact .answered _ rfl (by decide)
  · exact .raised .sinkIo (.inr ⟨rfl, .inl ⟨rfl, pre, rfl⟩⟩)
  · exact .abandoned rfl

theorem execEncode_end {s t : State} (h : execEncode s = .next t) : CommandEnd .encode s t := by
  rcases execEncode_next h with ⟨-, rfl⟩ | ⟨-, -, rfl⟩ | ⟨-, -, -, rfl⟩ |
    ⟨-, -, -, frame, pre, m, -, -, -, ⟨-, rfl⟩ | rfl | ⟨rfl, -⟩⟩
  · exact .answered _ rfl (by decide)
  · exact .raised .empty (.inl rfl)
  · exact .raised .shape (.inl rfl)
  · exact .answered _ rfl (by decide)
  · exact .raised .sinkIo (.inr ⟨rfl, .inr ⟨rfl, pre, m, rfl⟩⟩)
  · exact .abandoned rfl

theorem execRead_end {i : Instr} {s t : State} (h : exec i s = .next t)
    (hi : (∃ n, i = .rdreg n) ∨ (∃ k, i = .rdpal k) ∨ ∃ a, i = .rdidx a) : CommandEnd i s t := by
  rcases execRead_next h hi with ⟨v, rfl⟩ | rfl
  · exact .answered _ rfl (by decide)
  · exact .raised .illegalCmd (.inl rfl)

theorem exec_end {i : Instr} {s t : State} (h : exec i s = .next t) : CommandEnd i s t := by
  cases i with
  | clr => exact execClr_next h ▸ .answered _ rfl (by decide)
  | quant r g b => exact execQuant_next h ▸ .answered _ rfl (by decide)
  | pix r g b => exact execPix_end h
  | wrpal => exact execWrpal_end h
  | encode => exact execEncode_end h
  | rdreg n => exact execRead_end h (.inl ⟨n, rfl⟩)
  | rdpal k => exact execRead_end h (.inr (.inl ⟨k, rfl⟩))
  | rdidx a => exact execRead_end h (.inr (.inr ⟨a, rfl⟩))

/-- A command that answers `ERROR` with `code` ended in the error entry of the error with that
code. -/
theorem raised_of_error_response {i : Instr} {s t : State} {code : Colour} (h : exec i s = .next t)
    (hresp : t.responses = s.responses ++ [responseWord .error code]) :
    ∃ k u, RaisedAt i s k u ∧ k.code.setWidth 16 = code ∧ t = (u.latch k).answer .error code := by
  cases exec_end h with
  | abandoned hnone =>
    rw [hnone] at hresp
    simp at hresp
  | answered v hu hst =>
    rw [State.answer_responses, hu] at hresp
    obtain ⟨hst', -⟩ := responseWord_inj (List.singleton_inj.mp (List.append_cancel_left hresp))
    exact absurd hst' hst
  | @raised u k hu =>
    rw [State.answer_responses, State.latch_responses, hu.responses_eq] at hresp
    obtain ⟨-, hcode⟩ := responseWord_inj (List.singleton_inj.mp (List.append_cancel_left hresp))
    exact ⟨k, u, hu, hcode, by rw [hcode]⟩

/-- Settles O29: an `ERROR` response is that of the error entry, before which at most the bytes
before a failed one, and `SCR` inside `ENCODE`, were written. -/
theorem errorsArePrecise : Obligations.ErrorsArePrecise := by
  intro i s t code h hresp
  obtain ⟨k, u, hu, rfl, rfl⟩ := raised_of_error_response h hresp
  rcases hu with rfl | ⟨rfl, ⟨rfl, pre, rfl⟩ | ⟨rfl, pre, m, rfl⟩⟩
  · simp +contextual
  · simp +contextual [ErrKind.code]
  · simp +contextual [ErrKind.code]

end Sys2Proof.Machine

/-! ## Reset and hazards (70_reset_and_hazards.md): every admitted step completes, a whole image succeeds -/

namespace Sys2Proof.Machine

/-! ### The entries a command needs are written -/

theorem Memory.exists_read_eq_some {w : Nat} {m : Memory w} {n : Nat}
    (h : ∀ a < n, (m.read a).isSome) : ∃ f : Nat → BitVec w, ∀ a < n, m.read a = some (f a) :=
  ⟨fun a => (m.read a).getD 0#w, fun a ha => by
    obtain ⟨v, hv⟩ := Option.isSome_iff_exists.mp (h a ha)
    simp [hv]⟩

theorem State.Written.exists_pal {s : State} (h : s.Written) :
    ∃ p : Nat → Colour, ∀ k < s.plen.toNat, s.pal.read k = some (p k) := by
  obtain ⟨hpal, -⟩ := h
  refine Memory.exists_read_eq_some fun k hk => (hpal k ?_).mpr hk
  exact hk.trans_le (Nat.le_of_lt_succ s.plen.isLt)

theorem State.Written.exists_idx {s : State} (h : s.Written) (hmax : s.wptr.toNat ≤ 256) :
    ∃ f : Nat → Byte, ∀ a < s.wptr.toNat, s.idx.read a = some (f a) := by
  obtain ⟨-, hidx⟩ := h
  exact Memory.exists_read_eq_some fun a ha => (hidx a (ha.trans_le hmax)).mpr ha

/-! ### Every admitted step completes (R257) -/

/-- A fair sink leaves no byte unanswered. -/
theorem putBytes_ne_silent (x : Sink) (bs : List Byte) (n : Nat) {s : State}
    (hfair : s.sinkAnswer.fair = true) : (putBytes x n bs s).2 ≠ .silent := by
  intro h
  obtain ⟨-, -, -, -, hsilent, -⟩ := putBytes_cases x bs n s
  obtain ⟨j, hj⟩ := hsilent h
  simp [hj, SinkAnswer.fair] at hfair

/-- Only an unanswered byte keeps a command that offers bytes from ending. -/
theorem finishPut_completes (x : Sink) {r : State × PutAnswer} (done : State → State) (val : Colour)
    (h : r.2 ≠ .silent) : ∃ t, finishPut x r done val = .next t := by
  obtain ⟨u, a⟩ := r
  cases a with
  | accepted => exact ⟨_, rfl⟩
  | failed => exact ⟨_, rfl⟩
  | silent => exact absurd rfl h
  | reset => exact ⟨_, rfl⟩

/-- The shared tests of `WRPAL` and `ENCODE` all respond, so only a whole image is left to look at. -/
theorem exec_output_completes {i : Instr} {s : State} (hi : i = .wrpal ∨ i = .encode)
    (hwhole : s.err = 0#3 → s.plen ≠ 0#8 → s.wptr = 256#9 → ∃ t, exec i s = .next t) :
    ∃ t, exec i s = .next t := by
  by_cases herr : s.err = 0#3
  · obtain ⟨hempty, hshape⟩ := outputNeedsAWholeImage s i herr hi
    by_cases hplen : s.plen = 0#8
    · exact ⟨_, hempty hplen⟩
    · by_cases hwptr : s.wptr = 256#9
      · exact hwhole herr hplen hwptr
      · exact ⟨_, hshape hplen hwptr⟩
  · exact ⟨_, refusedWhileErrorLatched s herr i (.inr hi)⟩

section
variable {s : State}

theorem exec_wrpal_completes (hwritten : s.Written) (hfair : s.sinkAnswer.fair = true) :
    ∃ t, exec .wrpal s = .next t := by
  refine exec_output_completes (.inl rfl) fun herr hplen hwptr => ?_
  obtain ⟨p, hpal⟩ := hwritten.exists_pal
  rw [exec_wrpal_eq_finishPut herr hplen hwptr hpal]
  exact finishPut_completes .P _ _ (putBytes_ne_silent .P _ 0 hfair)

theorem exec_encode_completes (hwritten : s.Written) (hfair : s.sinkAnswer.fair = true) :
    ∃ t, exec .encode s = .next t := by
  refine exec_output_completes (.inr rfl) fun herr hplen hwptr => ?_
  obtain ⟨f, hidx⟩ := hwritten.exists_idx (by simp [hwptr])
  obtain ⟨m, h⟩ := exec_encode_eq_finishPut herr hplen hwptr (by simpa [hwptr] using hidx)
  rw [h]
  exact finishPut_completes .S _ _ (putBytes_ne_silent .S _ 0 hfair)

theorem exec_pix_completes (r g b : Byte) (hmax : s.wptr.toNat ≤ 256) (hwritten : s.Written) :
    ∃ t, exec (.pix r g b) s = .next t := by
  by_cases herr : s.err = 0#3
  · by_cases hfull : s.wptr = 256#9
    · exact ⟨_, exec_pix_of_wptr_full herr hfull⟩
    · have hroom : s.wptr.toNat < 256 := by bv_omega
      obtain ⟨p, hp⟩ := hwritten.exists_pal
      have hpal := State.palette_of_read hp
      cases hk : lookup (quant r g b) ((List.range s.plen.toNat).map p) with
      | some k => exact ⟨_, exec_pix_of_found herr hroom hpal hk⟩
      | none =>
        by_cases hplen : s.plen = 255#8
        · exact ⟨_, exec_pix_of_palette_full herr hroom hplen hpal hk⟩
        · exact ⟨_, exec_pix_of_new herr hroom (by bv_omega) hpal hk⟩
  · exact ⟨_, refusedWhileErrorLatched s herr _ (.inl ⟨r, g, b, rfl⟩)⟩

theorem exec_rdreg_completes (n : Byte) : ∃ t, exec (.rdreg n) s = .next t := by
  cases hv : s.reg n with
  | some v => exact ⟨_, exec_rdreg_of_reg hv⟩
  | none => exact ⟨_, exec_rdreg_of_no_reg hv⟩

theorem exec_rdpal_completes (k : Byte) (hwritten : s.Written) :
    ∃ t, exec (.rdpal k) s = .next t := by
  rcases Nat.lt_or_ge k.toNat s.plen.toNat with hk | hk
  · obtain ⟨p, hpal⟩ := hwritten.exists_pal
    exact ⟨_, exec_rdpal_of_read hk (hpal _ hk)⟩
  · exact ⟨_, exec_rdpal_of_le hk⟩

theorem exec_rdidx_completes (a : Byte) (hmax : s.wptr.toNat ≤ 256) (hwritten : s.Written) :
    ∃ t, exec (.rdidx a) s = .next t := by
  rcases Nat.lt_or_ge a.toNat s.wptr.toNat with ha | ha
  · obtain ⟨f, hidx⟩ := hwritten.exists_idx hmax
    exact ⟨_, exec_rdidx_of_read ha (hidx _ ha)⟩
  · exact ⟨_, exec_rdidx_of_le ha⟩

/-- Every command ends, where `WPTR` is in range, the claimed entries are written and the sink
answers. -/
theorem exec_completes (i : Instr) (hmax : s.wptr.toNat ≤ 256) (hwritten : s.Written)
    (hfair : s.sinkAnswer.fair = true) : ∃ t, exec i s = .next t := by
  cases i with
  | clr => exact ⟨_, rfl⟩
  | quant r g b => exact ⟨_, rfl⟩
  | pix r g b => exact exec_pix_completes r g b hmax hwritten
  | wrpal => exact exec_wrpal_completes hwritten hfair
  | encode => exact exec_encode_completes hwritten hfair
  | rdreg n => exact exec_rdreg_completes n
  | rdpal k => exact exec_rdpal_completes k hwritten
  | rdidx a => exact exec_rdidx_completes a hmax hwritten

end

/-- Settles O55: of the invariants a command needs the counts and the written entries; an idle step, an
illegal word and a reset need none. -/
theorem admittedStepsComplete : Obligations.AdmittedStepsComplete := by
  intro s hinv hadmitted
  obtain ⟨hmax, -, -⟩ := hinv.counts
  rcases hinbox : s.inbox with _ | ⟨⟨w, ans⟩ | _ | w, rest⟩
  · exact ⟨s, by simp [step, fetch, hinbox]⟩
  · have hfair : ans.fair = true := by simpa [State.Admitted, hinbox] using hadmitted
    cases hw : decode w with
    | ok i =>
      rw [stepRunsTheDecodedCommand s w ans rest i hinbox hw]
      exact exec_completes i hmax hinv.written hfair
    | error e => exact ⟨_, step_of_decode_error hinbox hw⟩
  · exact ⟨s.consume.coreReset, by simp [step, fetch, hinbox, resetEvent]⟩
  · simp [State.Admitted, hinbox] at hadmitted

/-! ### A whole image (R255) -/

theorem State.SameOutputs.refl (s : State) : s.SameOutputs s := by
  constructor <;> rfl

theorem State.SameOutputs.trans {s t u : State} (hst : s.SameOutputs t) (htu : t.SameOutputs u) :
    s.SameOutputs u := by
  constructor
  · exact htu.qout.trans hst.qout
  · exact htu.pdone.trans hst.pdone
  · exact htu.edone.trans hst.edone
  · exact htu.scr.trans hst.scr
  · exact htu.sinkP.trans hst.sinkP
  · exact htu.sinkS.trans hst.sinkS
  · exact htu.inbox.trans hst.inbox
  · exact htu.sinkAnswer.trans hst.sinkAnswer

/-- Pixels write no output. -/
theorem feedPixels_sameOutputs {ps : List Sample} {s t : State} (h : feedPixels ps s = .next t) :
    s.SameOutputs t := by
  induction ps generalizing s with
  | nil => exact Host.Outcome.next.inj h ▸ State.SameOutputs.refl s
  | cons p ps ih =>
    rw [feedPixels] at h
    split at h <;> rename_i u hu
    · exact (execPix_sameOutputs hu).trans (ih h)
    · exact absurd h (hu t)

/-- The first pixel's colour is new. -/
theorem length_indexer_fst_pos {ps : List Sample} (h : ps ≠ []) : 0 < (indexer ps).1.length := by
  obtain ⟨p, ps, rfl⟩ := List.exists_cons_of_ne_nil h
  have hfirst : (indexerRound ([], []) p).1.length = 1 := by simp [indexerRound]
  exact hfirst.ge.trans (length_le_foldl_indexerRound_fst ps _)

/-- R171's bytes of a palette list: the alpha slot, then each colour, low byte first. -/
theorem paletteBytes_getD (pal : List Colour) :
    paletteBytes (fun k => pal.getD k 0#16) pal.length =
      [0xFF#8, 0xFF#8] ++ pal.flatMap fun c => [c.extractLsb' 0 8, c.extractLsb' 8 8] := by
  have hpal : (List.range pal.length).map (fun k => pal.getD k 0#16) = pal :=
    List.ext_getElem (by simp) fun k _ hk => by simp [hk]
  rw [← paletteStream_map_range, hpal, paletteStream, funext littleEndian_eq_extractLsb']
  rfl

section
variable {s : State} {r : List Colour × List Byte}

theorem State.HoldsImage.read_pal (h : s.HoldsImage r) :
    ∀ k < s.plen.toNat, s.pal.read k = some (r.1.getD k 0#16) := fun k hk => by
  rw [h.plen] at hk
  simp [h.pal, hk]

theorem State.HoldsImage.read_idx (h : s.HoldsImage r) :
    ∀ a < s.wptr.toNat, s.idx.read a = some (r.2.getD a 0#8) := fun a ha => by
  rw [h.wptr] at ha
  simp [h.idx, ha]

theorem State.HoldsImage.plen_ne_zero (h : s.HoldsImage r) (hcolours : 0 < r.1.length) :
    s.plen ≠ 0#8 := fun hzero => by
  simp [← h.plen, hzero] at hcolours

theorem State.HoldsImage.wptr_eq_256 (h : s.HoldsImage r) (hindices : r.2.length = 256) :
    s.wptr = 256#9 :=
  BitVec.eq_of_toNat_eq (h.wptr.trans hindices)

/-- `WRPAL` puts the alpha slot and the held palette, and the image stays (R170, R171). -/
theorem State.HoldsImage.wrpal (h : s.HoldsImage r) (hcolours : 0 < r.1.length)
    (hindices : r.2.length = 256) (hanswer : s.sinkAnswer = .acceptAll) :
    ∃ t : State, exec .wrpal s = .next t ∧ t.HoldsImage r ∧ t.pdone = true ∧
      t.sinkP = s.sinkP ++ ([0xFF#8, 0xFF#8] ++
        r.1.flatMap fun c => [c.extractLsb' 0 8, c.extractLsb' 8 8]) ∧
      t.sinkS = s.sinkS ∧ t.sinkAnswer = s.sinkAnswer := by
  have hrun := wrpalPutsThePaletteStream s _ h.err (h.plen_ne_zero hcolours)
    (h.wptr_eq_256 hindices) h.read_pal (by rw [hanswer]; rfl)
  rw [h.plen, paletteBytes_getD] at hrun
  exact ⟨_, hrun, ⟨h.err, h.plen, h.wptr, h.pal, h.idx⟩, rfl, rfl, rfl, rfl⟩

/-- `ENCODE` puts the closed form of the held indices (R150). -/
theorem State.HoldsImage.encode (h : s.HoldsImage r) (hcolours : 0 < r.1.length)
    (hindices : r.2.length = 256) (hanswer : s.sinkAnswer = .acceptAll) :
    ∃ t : State, exec .encode s = .next t ∧ t.err = 0#3 ∧ t.pdone = s.pdone ∧ t.edone = true ∧
      t.sinkP = s.sinkP ∧ t.sinkS = s.sinkS ++ spriteBytes fun a => r.2.getD a 0#8 := by
  have hwptr := h.wptr_eq_256 hindices
  obtain ⟨scr, hrun⟩ := encodePutsTheClosedForm s _ h.err (h.plen_ne_zero hcolours) hwptr
    (by simpa [hwptr] using h.read_idx) (by rw [hanswer]; rfl)
  exact ⟨_, hrun, h.err, rfl, rfl, rfl, rfl⟩

end

/-- Settles O56: the pixels leave the indexer's image and touch no sink (O24), `WRPAL` puts its palette
and keeps it (O31), and `ENCODE` puts its indices (O34). -/
theorem wholeImageSucceeds : Obligations.WholeImageSucceeds := by
  intro ps s hempty hlength hcolours hanswer
  have hne : ps ≠ [] := List.ne_nil_of_length_pos (by omega)
  have hpos := length_indexer_fst_pos hne
  have hindices : (indexer ps).2.length = 256 :=
    (length_foldl_indexerRound_snd ps ([], [])).trans (by simp [hlength])
  obtain ⟨t, ht, himage⟩ := hempty.holdsImage.feedPixels (by simp [hlength]) hcolours
  have hsame := feedPixels_sameOutputs ht
  have hanswer' := hsame.sinkAnswer.trans hanswer
  obtain ⟨u, hu, himage', hpdone, hsinkP, hsinkS, hkept⟩ := himage.wrpal hpos hindices hanswer'
  obtain ⟨v, hv, herr, hpdone', hedone, hsinkP', hsinkS'⟩ :=
    himage'.encode hpos hindices (hkept.trans hanswer')
  refine ⟨t, u, v, ht, hu, hv, herr, hpdone'.trans hpdone, hedone, ?_, ?_⟩
  · rw [hsinkP', hsinkP, hsame.sinkP, List.append_assoc]
    rfl
  · rw [hsinkS', hsinkS, hsame.sinkS]
    rfl

end Sys2Proof.Machine

/-! ## The whole decoder (30_encoding.md): both round trips, the eight rows -/

namespace Sys2Proof

/-! ### Decoding an encoding -/

/-- A word of a format C opcode decodes to what the one row of its opcode builds from it. -/
theorem decode_formatC {op : BitVec 4} {r g b : Byte} {i : Instr} (hop : formatOf op = some .C)
    (hbuild : ∀ row ∈ opcodeRows, opField row.pattern = op → row.build (formatC op r g b) = i) :
    decode (formatC op r g b) = .ok i := by
  have hlegal : legalWord (formatC op r g b) = true :=
    (legalWord_iff _).mpr ⟨.C, by simp [hop, operandLegal]⟩
  exact decode_eq_of_build hlegal (by simpa using hbuild)

theorem decode_encode_pix (r g b : Byte) : decode (encode (.pix r g b)) = .ok (.pix r g b) :=
  decode_formatC rfl (by simp [opcodeRows, opField])

/-- Settles O1: the words of format Z are three fixed words, and every other word carries its operands
in the fields its row reads. -/
theorem decodeUndoesEncode : Obligations.DecodeUndoesEncode := by
  intro i
  cases i with
  | clr | wrpal | encode => rfl
  | quant r g b => exact decode_encode_quant r g b
  | pix r g b => exact decode_encode_pix r g b
  | rdreg n => exact decode_encode_rdreg n
  | rdpal k => exact decode_encode_rdpal k
  | rdidx a => exact decode_encode_rdidx a

/-! ### At most one row hits a word -/

theorem opcodeRows_opFields_nodup : (opcodeRows.map fun row => opField row.pattern).Nodup := by
  decide

/-- Two rows that hit one word are the same row, since both have its opcode. -/
theorem opcodeRow_eq_of_hits {row row' : OpcodeRow} {w : Word} (hrow : row ∈ opcodeRows)
    (hrow' : row' ∈ opcodeRows) (h : row.hits w = true) (h' : row'.hits w = true) : row = row' :=
  List.inj_on_of_nodup_map opcodeRows_opFields_nodup hrow hrow'
    ((opField_eq_of_hits hrow h).symm.trans (opField_eq_of_hits hrow' h'))

theorem length_filter_hits_le_one (w : Word) :
    (opcodeRows.filter fun row => row.hits w).length ≤ 1 := by
  have hop : ∀ op ∈ (opcodeRows.filter fun row => row.hits w).map fun row => opField row.pattern,
      op = opField w := by
    simp only [List.forall_mem_map, List.mem_filter]
    exact fun row ⟨hrow, hhit⟩ => (opField_eq_of_hits hrow hhit).symm
  have hnodup := opcodeRows_opFields_nodup.sublist
    ((List.filter_sublist (l := opcodeRows) (p := fun row => row.hits w)).map _)
  rw [List.eq_replicate_of_mem hop, List.nodup_replicate] at hnodup
  simpa using hnodup

/-- A word decodes to what a row that hits it builds from it (R87). -/
theorem decode_eq_ok_iff {w : Word} {i : Instr} :
    decode w = .ok i ↔ ∃ row ∈ opcodeRows, row.hits w = true ∧ row.build w = i := by
  unfold decode
  cases hfind : opcodeRows.find? fun row => row.hits w with
  | none =>
    have hnone := List.find?_eq_none.mp hfind
    simp only [reduceCtorEq, false_iff]
    exact fun ⟨row, hrow, hhit, _⟩ => hnone row hrow hhit
  | some row =>
    have hrow : row ∈ opcodeRows := List.mem_of_find?_eq_some hfind
    have hhit : row.hits w = true := List.find?_some (p := fun row : OpcodeRow => row.hits w) hfind
    refine ⟨fun h => ⟨row, hrow, hhit, Except.ok.inj h⟩, ?_⟩
    rintro ⟨row', hrow', hhit', rfl⟩
    rw [opcodeRow_eq_of_hits hrow hrow' hhit hhit']

/-- Settles O3: the rows' opcodes are pairwise distinct, and a row hits words of its own opcode
alone. -/
theorem noWordMatchesTwoRows : Obligations.NoWordMatchesTwoRows := by
  refine ⟨rfl, fun w => ⟨length_filter_hits_le_one w, fun row hrow hmatch => ?_, fun hnone => ?_⟩⟩
  · exact decode_eq_ok_iff.mpr ⟨row, hrow, (row.hits_iff w).mpr hmatch, rfl⟩
  · rw [decode_error_iff_no_row]
    rintro ⟨row, hrow, hhit⟩
    exact hnone row hrow ((row.hits_iff w).mp hhit)

/-! ### Encoding what was decoded -/

theorem formatZ_of_and_mask (op : BitVec 4) {w : Word} (h : w &&& Format.Z.mask = formatZ op) :
    formatZ op = w := by
  have hmask : Format.Z.mask = BitVec.allOnes 32 := by decide
  rw [← h, hmask, BitVec.and_allOnes]

/-- The high operand bits are the channels `R` and `G` of format C (R83). -/
theorem highArgField_eq_append (w : Word) : highArgField w = fieldR w ++ fieldG w :=
  (BitVec.extractLsb'_append_extractLsb'_eq_extractLsb' (start₁ := 8) (len₁ := 8) rfl).symm

theorem formatC_of_and_mask (op : BitVec 4) {w : Word} (h : w &&& Format.C.mask = formatZ op) :
    formatC op (fieldR w) (fieldG w) (fieldLow w) = w := by
  obtain ⟨hop, hrsv, -⟩ := (and_mask_eq_iff .C op w).mp h
  simp [word_eq_iff_fields, argField_eq_append, highArgField_eq_append, hop, hrsv]

theorem formatN_of_and_mask (op : BitVec 4) {w : Word} (h : w &&& Format.N.mask = formatZ op) :
    formatN op (fieldLow w) = w := by
  obtain ⟨hop, hrsv, hhigh⟩ := (and_mask_eq_iff .N op w).mp h
  replace hhigh : highArgField w = 0#16 := by simpa [operandLegal] using hhigh
  simp [word_eq_iff_fields, argField_eq_append, hop, hrsv, hhigh]

/-- Settles O2: the mask fixes every bit of a word that is no operand, and the row reads the rest. -/
theorem encodeUndoesDecode : Obligations.EncodeUndoesDecode := by
  intro w i h
  obtain ⟨row, hrow, hhit, rfl⟩ := decode_eq_ok_iff.mp h
  rw [row.hits_iff] at hhit
  clear h
  revert row
  simp only [opcodeRows, List.forall_mem_cons]
  exact ⟨formatZ_of_and_mask 1#4, formatC_of_and_mask 2#4, formatC_of_and_mask 3#4,
    formatZ_of_and_mask 4#4, formatZ_of_and_mask 5#4, formatN_of_and_mask 6#4,
    formatN_of_and_mask 7#4, formatN_of_and_mask 8#4, by simp⟩

/-- Settles O5, by running the decoder on each word. -/
theorem sampleWordsDecode : Obligations.SampleWordsDecode :=
  ⟨rfl, rfl, rfl, rfl, rfl, rfl, rfl, rfl, rfl, rfl, rfl, rfl, rfl, rfl⟩

end Sys2Proof

/-! ## The invariants of 10_state.md section 4 through every step -/

namespace Sys2Proof.Machine

/-! ### The operations that leave the image as it is -/

theorem State.Inv.answer {s : State} (hs : s.Inv) (st : Status) (v : Colour) :
    (s.answer st v).Inv :=
  { hs with err := hs.err }

theorem State.Inv.consume {s : State} (hs : s.Inv) : s.consume.Inv := by
  unfold State.consume
  split
  · exact hs
  all_goals exact { hs with err := hs.err }

theorem State.Inv.appendAll {s : State} (hs : s.Inv) (x : Sink) (bs : List Byte) :
    (s.appendAll x bs).Inv := by
  cases x <;> exact { hs with err := hs.err }

/-- The codes are 1 to 5 (R25, R200). -/
theorem State.ErrLegal.latch {s : State} (hs : s.ErrLegal) (k : ErrKind) :
    (s.latch k).ErrLegal := by
  rw [State.ErrLegal, State.latch_err]
  split
  · cases k <;> decide
  · exact hs

theorem State.Inv.latch {s : State} (hs : s.Inv) (k : ErrKind) : (s.latch k).Inv :=
  { hs with err := hs.err.latch k }

theorem State.Inv.withScr {s : State} (hs : s.Inv) {m : Memory 8}
    (hm : s.scr.wf 256 → Memory.wf 256 m) : (s.withScr m).Inv :=
  { hs with memory := hs.memory.imp_right (And.imp_right hm) }

/-- A completion flag set over a whole image (R40). -/
theorem State.Inv.setPdone {s : State} (hs : s.Inv) (hplen : s.plen ≠ 0#8) (hwptr : s.wptr = 256#9) :
    s.setPdone.Inv :=
  { hs with done := fun _ => ⟨hwptr, hplen⟩ }

theorem State.Inv.setEdone {s : State} (hs : s.Inv) (hplen : s.plen ≠ 0#8) (hwptr : s.wptr = 256#9) :
    s.setEdone.Inv :=
  { hs with done := fun _ => ⟨hwptr, hplen⟩ }

theorem getLsbD_quant_15 (r g b : Byte) : (quant r g b).getLsbD 15 = false := by
  rw [quant_eq_bgr555, getLsbD_bgr555_15]

/-- `QOUT` holds a quantized colour (R22). -/
theorem State.Inv.withQout {s : State} (hs : s.Inv) (r g b : Byte) :
    ({ s with qout := quant r g b } : State).Inv :=
  { hs with highBit := hs.highBit.imp_right fun _ => getLsbD_quant_15 r g b }

/-! ### Accepting a pixel -/

/-- `IDX[WPTR] <- v; WPTR <- WPTR + 1` (R120). -/
def State.pushIndex (s : State) (v : Byte) : State :=
  { s with idx := s.idx.write s.wptr.toNat v, wptr := s.wptr + 1#9 }

/-- The state in which `PIX` writes the index `v`: the image with the pixel's colour in the palette and
its index not yet in the buffer, so that only `v`'s own entry may still be unused. -/
structure State.AwaitsIndex (s : State) (v : Byte) : Prop where
  memory : s.MemoryForm
  room : s.wptr.toNat < 256
  plenPos : 1 ≤ s.plen.toNat
  plenLe : s.plen.toNat ≤ s.wptr.toNat + 1
  written : s.Written
  unique : s.PaletteUnique
  firstSeen : s.FirstSeen
  valid : s.IndexValid
  index : 1 ≤ v.toNat ∧ v.toNat ≤ s.plen.toNat
  used : ∀ k < s.plen.toNat, v = BitVec.ofNat 8 (k + 1) ∨
    ∃ a < s.wptr.toNat, s.idx.read a = some (BitVec.ofNat 8 (k + 1))
  highBit : s.HighBitZero
  done : s.pdone = false ∧ s.edone = false
  err : s.ErrLegal

section
variable {s : State} {v : Byte}

theorem State.pushIndex_read_lt {a : Nat} (ha : a < s.wptr.toNat) :
    (s.pushIndex v).idx.read a = s.idx.read a :=
  Memory.read_write_other _ _ ha.ne

theorem State.pushIndex_read_wptr : (s.pushIndex v).idx.read s.wptr.toNat = some v :=
  Memory.read_write_same ..

theorem State.toNat_pushIndex_wptr (hroom : s.wptr.toNat < 256) :
    (s.pushIndex v).wptr.toNat = s.wptr.toNat + 1 :=
  toNat_wptr_add_one hroom

theorem State.AwaitsIndex.pushIndex_counts (h : s.AwaitsIndex v) : (s.pushIndex v).Counts := by
  have hwptr := State.toNat_pushIndex_wptr (v := v) h.room
  exact ⟨hwptr.trans_le h.room, h.plenLe.trans_eq hwptr.symm, iff_of_false
    (fun hzero => Nat.ne_of_gt h.plenPos (congrArg BitVec.toNat hzero))
    (fun hzero => by simp [hzero] at hwptr)⟩

theorem State.AwaitsIndex.pushIndex_written (h : s.AwaitsIndex v) : (s.pushIndex v).Written := by
  obtain ⟨hpal, hidx⟩ := h.written
  refine ⟨hpal, fun a ha => ?_⟩
  rw [State.toNat_pushIndex_wptr h.room, State.pushIndex, Memory.read_write]
  split
  · simp; omega
  · rw [hidx a ha]; omega

theorem State.AwaitsIndex.pushIndex_firstSeen (h : s.AwaitsIndex v) : (s.pushIndex v).FirstSeen := by
  obtain ⟨hfirst, hzero⟩ := h.firstSeen
  refine ⟨fun k hk j hj => ?_, fun _ => ?_⟩
  · obtain ⟨a, ha, hread, hbefore⟩ := hfirst k hk j hj
    refine ⟨a, ?_, ?_, fun b hb => ?_⟩
    · rw [State.toNat_pushIndex_wptr h.room]; omega
    · rwa [State.pushIndex_read_lt ha]
    · rw [State.pushIndex_read_lt (by omega)]; exact hbefore b hb
  · by_cases hw : s.wptr.toNat = 0
    · have hv : v = 1#8 := by
        have := h.index; have := h.plenLe
        exact BitVec.eq_of_toNat_eq (by simp; omega)
      rw [← hv, ← hw, State.pushIndex_read_wptr]
    · rw [State.pushIndex_read_lt (by omega)]
      exact hzero (by omega)

theorem State.AwaitsIndex.pushIndex_valid (h : s.AwaitsIndex v) : (s.pushIndex v).IndexValid := by
  intro a ha u hu
  rw [State.toNat_pushIndex_wptr h.room] at ha
  rcases Nat.lt_succ_iff_lt_or_eq.mp ha with ha | rfl
  · rw [State.pushIndex_read_lt ha] at hu
    exact h.valid a ha u hu
  · rw [State.pushIndex_read_wptr] at hu
    obtain rfl := Option.some.inj hu
    exact h.index

theorem State.AwaitsIndex.pushIndex_used (h : s.AwaitsIndex v) : (s.pushIndex v).PaletteUsed := by
  intro k hk
  rw [State.toNat_pushIndex_wptr h.room]
  rcases h.used k hk with rfl | ⟨a, ha, hread⟩
  · exact ⟨s.wptr.toNat, by omega, State.pushIndex_read_wptr⟩
  · exact ⟨a, by omega, by rwa [State.pushIndex_read_lt ha]⟩

/-- Writing the index completes the pixel and restores the invariants. -/
theorem State.AwaitsIndex.pushIndex (h : s.AwaitsIndex v) : (s.pushIndex v).Inv where
  memory := h.memory.imp_right (And.imp_left fun hidx => Memory.wf_write v hidx h.room)
  counts := h.pushIndex_counts
  written := h.pushIndex_written
  unique := h.unique
  firstSeen := h.pushIndex_firstSeen
  valid := h.pushIndex_valid
  used := h.pushIndex_used
  highBit := h.highBit
  done := fun hdone => absurd hdone (by simp [State.pushIndex, h.done])
  err := h.err

/-- While the buffer has room no stream has been completed (R40). -/
theorem State.Inv.not_done (hs : s.Inv) (hroom : s.wptr.toNat < 256) :
    s.pdone = false ∧ s.edone = false := by
  have hnot : ¬ (s.pdone = true ∨ s.edone = true) := fun hdone => by
    obtain ⟨hfull, -⟩ := hs.done hdone
    exact wptr_ne_of_lt hroom hfull
  simpa using hnot

/-- A colour found at position `k`: the image waits for index `k + 1`. -/
theorem State.Inv.awaitsIndex_of_found (hs : s.Inv) (hroom : s.wptr.toNat < 256) {k : Nat}
    (hk : k < s.plen.toNat) : s.AwaitsIndex (BitVec.ofNat 8 (k + 1)) := by
  obtain ⟨-, hplenLe, -⟩ := hs.counts
  have hindex : (BitVec.ofNat 8 (k + 1)).toNat = k + 1 :=
    Nat.mod_eq_of_lt (by have := s.plen.isLt; omega)
  exact {
    memory := hs.memory, room := hroom, plenPos := by omega, plenLe := by omega
    written := hs.written, unique := hs.unique, firstSeen := hs.firstSeen, valid := hs.valid
    index := by omega, used := fun j hj => .inr (hs.used j hj)
    highBit := hs.highBit, done := hs.not_done hroom, err := hs.err }

/-! ### A new colour -/

variable {c : Colour}

theorem State.toNat_appendColour_plen (hfits : s.plen.toNat < 255) :
    (s.appendColour c).plen.toNat = s.plen.toNat + 1 :=
  toNat_plen_add_one hfits

theorem State.appendColour_read_lt {k : Nat} (hk : k < s.plen.toNat) :
    (s.appendColour c).pal.read k = s.pal.read k :=
  Memory.read_write_other _ _ hk.ne

theorem State.appendColour_read_plen : (s.appendColour c).pal.read s.plen.toNat = some c :=
  Memory.read_write_same ..

theorem State.Written.appendColour (hs : s.Written) (hfits : s.plen.toNat < 255) :
    (s.appendColour c).Written := by
  obtain ⟨hpal, hidx⟩ := hs
  refine ⟨fun k hk => ?_, hidx⟩
  rw [State.toNat_appendColour_plen hfits, State.appendColour_pal, Memory.read_write]
  split
  · simp; omega
  · rw [hpal k hk]; omega

theorem State.PaletteUnique.appendColour (hs : s.PaletteUnique) (hfits : s.plen.toNat < 255)
    (hnew : ∀ k < s.plen.toNat, s.pal.read k ≠ some c) : (s.appendColour c).PaletteUnique := by
  intro k hk j hj
  rw [State.toNat_appendColour_plen hfits] at hk
  rw [State.appendColour_read_lt (by omega)]
  rcases Nat.lt_succ_iff_lt_or_eq.mp hk with hk | rfl
  · rw [State.appendColour_read_lt hk]
    exact hs k hk j hj
  · rw [State.appendColour_read_plen]
    exact hnew j hj

theorem State.HighBitZero.appendColour (hs : s.HighBitZero) (hfits : s.plen.toNat < 255)
    (hc : c.getLsbD 15 = false) : (s.appendColour c).HighBitZero := by
  obtain ⟨hpal, hqout⟩ := hs
  refine ⟨fun k hk v hv => ?_, hqout⟩
  rw [State.toNat_appendColour_plen hfits] at hk
  rcases Nat.lt_succ_iff_lt_or_eq.mp hk with hk | rfl
  · rw [State.appendColour_read_lt hk] at hv
    exact hpal k hk v hv
  · rw [State.appendColour_read_plen] at hv
    obtain rfl := Option.some.inj hv
    exact hc

theorem State.IndexValid.appendColour (hs : s.IndexValid) (hfits : s.plen.toNat < 255) :
    (s.appendColour c).IndexValid := by
  intro a ha v hv
  rw [State.toNat_appendColour_plen hfits]
  obtain ⟨hpos, hle⟩ := hs a ha v hv
  exact ⟨hpos, by omega⟩

/-- The new colour's index stands nowhere yet, so every older colour is seen before it (R36). -/
theorem State.Inv.firstSeen_appendColour (hs : s.Inv) (hfits : s.plen.toNat < 255) :
    (s.appendColour c).FirstSeen := by
  obtain ⟨hfirst, hzero⟩ := hs.firstSeen
  refine ⟨fun k hk j hj => ?_, hzero⟩
  rw [State.toNat_appendColour_plen hfits] at hk
  rcases Nat.lt_succ_iff_lt_or_eq.mp hk with hk | rfl
  · exact hfirst k hk j hj
  · obtain ⟨a, ha, hread⟩ := hs.used j hj
    refine ⟨a, ha, hread, fun b hb hnew => ?_⟩
    have hindex : (BitVec.ofNat 8 (s.plen.toNat + 1)).toNat = s.plen.toNat + 1 :=
      Nat.mod_eq_of_lt (by omega)
    obtain ⟨-, hle⟩ := hs.valid b (by omega) _ hnew
    omega

/-- A new colour appended: the image waits for its index, the new `PLEN`. -/
theorem State.Inv.awaitsIndex_of_new (hs : s.Inv) (hroom : s.wptr.toNat < 256)
    (hfits : s.plen.toNat < 255) (hnew : ∀ k < s.plen.toNat, s.pal.read k ≠ some c)
    (hc : c.getLsbD 15 = false) : (s.appendColour c).AwaitsIndex (s.plen + 1#8) := by
  obtain ⟨hpal, hidx, hscr⟩ := hs.memory
  obtain ⟨-, hplenLe, -⟩ := hs.counts
  have hplen := State.toNat_appendColour_plen (c := c) hfits
  have hindex := toNat_plen_add_one hfits
  exact {
    memory := ⟨Memory.wf_write c hpal hfits, hidx, hscr⟩
    room := hroom
    plenPos := by omega
    plenLe := by rw [hplen]; exact Nat.succ_le_succ hplenLe
    written := hs.written.appendColour hfits
    unique := hs.unique.appendColour hfits hnew
    firstSeen := hs.firstSeen_appendColour hfits
    valid := hs.valid.appendColour hfits
    index := by omega
    used := fun k hk => by
      rw [hplen] at hk
      rcases Nat.lt_succ_iff_lt_or_eq.mp hk with hk | rfl
      · exact .inr (hs.used k hk)
      · exact .inl (add_one_eq_ofNat s.plen)
    highBit := hs.highBit.appendColour hfits hc
    done := hs.not_done hroom
    err := hs.err }

end

/-! ### Every command -/

theorem execPix_inv {r g b : Byte} {s t : State} (hs : s.Inv) (h : execPix r g b s = .next t) :
    t.Inv := by
  rcases execPix_next h with ⟨-, rfl⟩ | ⟨-, -, rfl⟩ | ⟨-, -, rfl⟩ | ⟨-, hroom, k, hk, -, rfl⟩ |
    ⟨-, hroom, hfits, hnew, rfl⟩
  · exact hs.answer ..
  · exact (hs.latch _).answer ..
  · exact (hs.latch _).answer ..
  · exact (hs.awaitsIndex_of_found hroom hk).pushIndex.answer ..
  · have hnew : ∀ k < s.plen.toNat, s.pal.read k ≠ some (quant r g b) := fun k hk heq => by
      obtain ⟨v, hv, hne⟩ := hnew k hk
      exact hne (Option.some.inj (hv.symm.trans heq))
    exact (hs.awaitsIndex_of_new hroom hfits hnew (getLsbD_quant_15 r g b)).pushIndex.answer ..

theorem execWrpal_inv {s t : State} (hs : s.Inv) (h : execWrpal s = .next t) : t.Inv := by
  rcases execWrpal_next h with ⟨-, rfl⟩ | ⟨-, -, rfl⟩ | ⟨-, -, -, rfl⟩ |
    ⟨-, hplen, hwptr, pal, pre, -, -, ⟨-, rfl⟩ | rfl | ⟨rfl, -⟩⟩
  · exact hs.answer ..
  · exact (hs.latch _).answer ..
  · exact (hs.latch _).answer ..
  · exact ((hs.appendAll .P pre).setPdone hplen hwptr).answer ..
  · exact ((hs.appendAll .P pre).latch _).answer ..
  · exact State.coreReset_inv _

theorem execEncode_inv {s t : State} (hs : s.Inv) (h : execEncode s = .next t) : t.Inv := by
  rcases execEncode_next h with ⟨-, rfl⟩ | ⟨-, -, rfl⟩ | ⟨-, -, -, rfl⟩ |
    ⟨-, hplen, hwptr, frame, pre, m, -, hm, -, ⟨-, rfl⟩ | rfl | ⟨rfl, -⟩⟩
  · exact hs.answer ..
  · exact (hs.latch _).answer ..
  · exact (hs.latch _).answer ..
  · exact (((hs.appendAll .S pre).withScr hm).setEdone hplen hwptr).answer ..
  · exact (((hs.appendAll .S pre).withScr hm).latch _).answer ..
  · exact State.coreReset_inv _

theorem execRead_inv {i : Instr} {s t : State} (hs : s.Inv) (h : exec i s = .next t)
    (hi : (∃ n, i = .rdreg n) ∨ (∃ k, i = .rdpal k) ∨ ∃ a, i = .rdidx a) : t.Inv := by
  rcases execRead_next h hi with ⟨v, rfl⟩ | rfl
  · exact hs.answer ..
  · exact (hs.latch _).answer ..

theorem exec_inv {i : Instr} {s t : State} (hs : s.Inv) (h : exec i s = .next t) : t.Inv := by
  cases i with
  | clr => exact execClr_next h ▸ s.coreReset_inv.answer ..
  | quant r g b => exact execQuant_next h ▸ (hs.withQout r g b).answer ..
  | pix r g b => exact execPix_inv hs h
  | wrpal => exact execWrpal_inv hs h
  | encode => exact execEncode_inv hs h
  | rdreg n => exact execRead_inv hs h (.inl ⟨n, rfl⟩)
  | rdpal k => exact execRead_inv hs h (.inr (.inl ⟨k, rfl⟩))
  | rdidx a => exact execRead_inv hs h (.inr (.inr ⟨a, rfl⟩))

/-- Settles O54: an idle step changes nothing, a command keeps the invariants, an illegal word latches
an error at most, and the reset state meets them. -/
theorem stepKeepsTheInvariants : Obligations.StepKeepsTheInvariants := by
  intro s t hs h
  rcases step_next h with ⟨-, rfl⟩ | ⟨i, -, hexec⟩ | ⟨-, rfl⟩ | ⟨-, rfl⟩
  · exact hs
  · exact exec_inv hs.consume hexec
  · exact (hs.consume.latch _).answer ..
  · exact s.consume.coreReset_inv

end Sys2Proof.Machine

/-! ## What every command leaves, appends and answers: the image, the sinks, the responses -/

namespace Sys2Proof.Machine

/-! ### Who writes the image (10_state.md section 2) -/

/-- `t` holds the image of `s`: the palette, the index buffer and their counts. -/
structure State.SameImage (s t : State) : Prop where
  plen : t.plen = s.plen
  wptr : t.wptr = s.wptr
  pal : t.pal = s.pal
  idx : t.idx = s.idx

theorem State.sameImage_answer (s : State) (st : Status) (v : Colour) :
    s.SameImage (s.answer st v) := by
  constructor <;> rfl

theorem State.sameImage_latch_answer (s : State) (k : ErrKind) (st : Status) (v : Colour) :
    s.SameImage ((s.latch k).answer st v) := by
  constructor <;> rfl

theorem execWrpal_sameImage {s t : State} (h : execWrpal s = .next t)
    (hno : ∀ j, s.sinkAnswer ≠ .resetAt j) : s.SameImage t := by
  rcases execWrpal_next h with ⟨-, rfl⟩ | ⟨-, -, rfl⟩ | ⟨-, -, -, rfl⟩ |
    ⟨-, -, -, pal, pre, -, -, ⟨-, rfl⟩ | rfl | ⟨-, j, hj⟩⟩
  · exact s.sameImage_answer ..
  · exact s.sameImage_latch_answer ..
  · exact s.sameImage_latch_answer ..
  · constructor <;> rfl
  · constructor <;> rfl
  · exact absurd hj (hno j)

theorem execEncode_sameImage {s t : State} (h : execEncode s = .next t)
    (hno : ∀ j, s.sinkAnswer ≠ .resetAt j) : s.SameImage t := by
  rcases execEncode_next h with ⟨-, rfl⟩ | ⟨-, -, rfl⟩ | ⟨-, -, -, rfl⟩ |
    ⟨-, -, -, frame, pre, m, -, -, -, ⟨-, rfl⟩ | rfl | ⟨-, j, hj⟩⟩
  · exact s.sameImage_answer ..
  · exact s.sameImage_latch_answer ..
  · exact s.sameImage_latch_answer ..
  · constructor <;> rfl
  · constructor <;> rfl
  · exact absurd hj (hno j)

theorem execRead_sameImage {i : Instr} {s t : State} (h : exec i s = .next t)
    (hi : (∃ n, i = .rdreg n) ∨ (∃ k, i = .rdpal k) ∨ ∃ a, i = .rdidx a) : s.SameImage t := by
  rcases execRead_next h hi with ⟨v, rfl⟩ | rfl
  · exact s.sameImage_answer ..
  · exact s.sameImage_latch_answer ..

theorem exec_sameImage {i : Instr} {s t : State} (h : exec i s = .next t)
    (hpix : ∀ r g b, i ≠ .pix r g b) (hclr : i ≠ .clr) (hno : ∀ j, s.sinkAnswer ≠ .resetAt j) :
    s.SameImage t := by
  cases i with
  | clr => exact absurd rfl hclr
  | quant r g b => exact execQuant_next h ▸ ⟨rfl, rfl, rfl, rfl⟩
  | pix r g b => exact absurd rfl (hpix r g b)
  | wrpal => exact execWrpal_sameImage h hno
  | encode => exact execEncode_sameImage h hno
  | rdreg n => exact execRead_sameImage h (.inl ⟨n, rfl⟩)
  | rdpal k => exact execRead_sameImage h (.inr (.inl ⟨k, rfl⟩))
  | rdidx a => exact execRead_sameImage h (.inr (.inr ⟨a, rfl⟩))

/-- Settles O48: such a command writes `QOUT`, a flag, `SCR`, `ERR`, a sink and the response at most. -/
theorem onlyPixWritesTheImage : Obligations.OnlyPixWritesTheImage := by
  intro i s t h hpix hclr hno
  obtain ⟨hplen, hwptr, hpal, hidx⟩ := exec_sameImage h hpix hclr hno
  exact ⟨hplen, hwptr, fun k => by rw [hpal], fun a => by rw [hidx]⟩

/-! ### One response per command word (R89, R240) -/

theorem execPix_answers {r g b : Byte} {s t : State} (h : execPix r g b s = .next t) :
    t.responses ≠ s.responses := by
  rcases execPix_next h with ⟨-, rfl⟩ | ⟨-, -, rfl⟩ | ⟨-, -, rfl⟩ | ⟨-, -, k, -, -, rfl⟩ |
    ⟨-, -, -, -, rfl⟩ <;> simp

theorem execRead_answers {i : Instr} {s t : State} (h : exec i s = .next t)
    (hi : (∃ n, i = .rdreg n) ∨ (∃ k, i = .rdpal k) ∨ ∃ a, i = .rdidx a) :
    t.responses ≠ s.responses := by
  rcases execRead_next h hi with ⟨v, rfl⟩ | rfl <;> simp

theorem execWrpal_answers {s t : State} (h : execWrpal s = .next t)
    (hno : ∀ j, s.sinkAnswer ≠ .resetAt j) : t.responses ≠ s.responses := by
  rcases execWrpal_next h with ⟨-, rfl⟩ | ⟨-, -, rfl⟩ | ⟨-, -, -, rfl⟩ |
    ⟨-, -, -, pal, pre, -, -, ⟨-, rfl⟩ | rfl | ⟨-, j, hj⟩⟩
  case inr.inr.inr.inr.inr => exact absurd hj (hno j)
  all_goals simp

theorem execEncode_answers {s t : State} (h : execEncode s = .next t)
    (hno : ∀ j, s.sinkAnswer ≠ .resetAt j) : t.responses ≠ s.responses := by
  rcases execEncode_next h with ⟨-, rfl⟩ | ⟨-, -, rfl⟩ | ⟨-, -, -, rfl⟩ |
    ⟨-, -, -, frame, pre, m, -, -, -, ⟨-, rfl⟩ | rfl | ⟨-, j, hj⟩⟩
  case inr.inr.inr.inr.inr => exact absurd hj (hno j)
  all_goals simp

/-- A command that gives no response is an output command that a reset abandoned. -/
theorem abandoned_of_responses_eq {i : Instr} {s t : State} (h : exec i s = .next t)
    (hresp : t.responses = s.responses) :
    (i = .wrpal ∨ i = .encode) ∧ ∃ j, s.sinkAnswer = .resetAt j := by
  cases i with
  | clr => simp [execClr_next h] at hresp
  | quant r g b => simp [execQuant_next h] at hresp
  | pix r g b => exact absurd hresp (execPix_answers h)
  | wrpal => exact ⟨.inl rfl, by_contra fun hno => execWrpal_answers h (not_exists.mp hno) hresp⟩
  | encode => exact ⟨.inr rfl, by_contra fun hno => execEncode_answers h (not_exists.mp hno) hresp⟩
  | rdreg n => exact absurd hresp (execRead_answers h (.inl ⟨n, rfl⟩))
  | rdpal k => exact absurd hresp (execRead_answers h (.inr (.inl ⟨k, rfl⟩)))
  | rdidx a => exact absurd hresp (execRead_answers h (.inr (.inr ⟨a, rfl⟩)))

/-- A command gives one response word, or none. -/
theorem exec_responses {i : Instr} {s t : State} (h : exec i s = .next t) :
    (∃ st v, t.responses = s.responses ++ [responseWord st v]) ∨ t.responses = s.responses := by
  cases exec_end h with
  | abandoned hresp => exact .inr hresp
  | @answered u st v hresp _ => exact .inl ⟨st, v, by rw [State.answer_responses, hresp]⟩
  | @raised u k hu =>
    exact .inl ⟨_, _, by rw [State.answer_responses, State.latch_responses, hu.responses_eq]⟩

/-- The status 3 never occurs (R89). -/
theorem Status.code_ne_three (st : Status) : st.code ≠ 3#2 := by
  cases st <;> decide

/-- Settles O10: an illegal word is answered by the error entry, and a command that is not answered was
abandoned. -/
theorem everyWordIsAnsweredOnce : Obligations.EveryWordIsAnsweredOnce := by
  intro s t w ans rest hs h
  have hword : ∀ st v, t.responses = s.responses ++ [responseWord st v] →
      ∃ r : Word, t.responses = s.responses ++ [r] ∧ r.extractLsb' 18 14 = 0#14 ∧
        r.extractLsb' 16 2 ≠ 3#2 := fun st v hresp =>
    ⟨_, hresp, extractLsb'_responseWord_reserved st v, by
      rw [extractLsb'_responseWord_st]; exact st.code_ne_three⟩
  cases hw : decode w with
  | error e =>
    rw [step_of_decode_error hs hw] at h
    cases h
    exact .inl (hword _ _ rfl)
  | ok i =>
    rw [stepRunsTheDecodedCommand s w ans rest i hs hw] at h
    rcases exec_responses h with ⟨st, v, hresp⟩ | hresp
    · exact .inl (hword st v hresp)
    · obtain ⟨hi, j, hj⟩ := abandoned_of_responses_eq h hresp
      exact .inr ⟨j, hj, hi.imp (congrArg Except.ok) (congrArg Except.ok), hresp⟩

/-! ### The host's lists only grow (R55, R241) -/

/-- What the host has received in `s` it has still, and first, in `t`. -/
structure State.HostKeeps (s t : State) : Prop where
  sinkP : s.sinkP <+: t.sinkP
  sinkS : s.sinkS <+: t.sinkS
  responses : s.responses <+: t.responses

theorem execWrpal_sinkP_prefix {s t : State} (h : execWrpal s = .next t) : s.sinkP <+: t.sinkP := by
  rcases execWrpal_next h with ⟨-, rfl⟩ | ⟨-, -, rfl⟩ | ⟨-, -, -, rfl⟩ |
    ⟨-, -, -, pal, pre, -, -, ⟨-, rfl⟩ | rfl | ⟨rfl, -⟩⟩ <;> simp

theorem execEncode_sinkS_prefix {s t : State} (h : execEncode s = .next t) :
    s.sinkS <+: t.sinkS := by
  rcases execEncode_next h with ⟨-, rfl⟩ | ⟨-, -, rfl⟩ | ⟨-, -, -, rfl⟩ |
    ⟨-, -, -, frame, pre, m, -, -, -, ⟨-, rfl⟩ | rfl | ⟨rfl, -⟩⟩ <;> simp

/-- Each sink has one writer (R34), and a command adds at most its response. -/
theorem exec_hostKeeps {i : Instr} {s t : State} (h : exec i s = .next t) : s.HostKeeps t := by
  obtain ⟨hsinkP, hsinkS, -⟩ := eachRegisterHasItsWriters i s t h
  refine ⟨?_, ?_, ?_⟩
  · by_cases hi : i = .wrpal
    · subst hi
      exact execWrpal_sinkP_prefix h
    · rw [hsinkP hi]
  · by_cases hi : i = .encode
    · subst hi
      exact execEncode_sinkS_prefix h
    · rw [hsinkS hi]
  · rcases exec_responses h with ⟨st, v, hresp⟩ | hresp
    · rw [hresp]
      exact List.prefix_append ..
    · rw [hresp]

/-- Settles O50: taking the host's action leaves the three lists as they are, a command keeps what
they hold, an illegal word adds its response, and a reset touches none of them. -/
theorem sinksOnlyGrow : Obligations.SinksOnlyGrow := by
  intro s t h
  rcases step_next h with ⟨-, rfl⟩ | ⟨i, -, hexec⟩ | ⟨-, rfl⟩ | ⟨-, rfl⟩
  · simp
  · obtain ⟨hsinkP, hsinkS, hresponses⟩ := exec_hostKeeps hexec
    exact ⟨by simpa using hsinkP, by simpa using hsinkS, by simpa using hresponses⟩
  · simp
  · simp

end Sys2Proof.Machine

/-! ## Reset, `CLR` and the silent sink (70_reset_and_hazards.md sections 1, 4, 6) -/

namespace Sys2Proof.Machine

/-! ### A stream that a silent sink or a reset ends -/

/-- The bytes before byte `j` are accepted, and its answer `a` ends the stream. -/
theorem putBytes_endsAt (x : Sink) {bs : List Byte} {s : State} {j : Nat} {a : PutAnswer}
    (hj : j < bs.length) (hbefore : ∀ k < j, s.sinkAnswer.toByte k = .accepted)
    (hend : s.sinkAnswer.toByte j = a) (ha : a ≠ .accepted) :
    putBytes x 0 bs s = (s.appendAll x (bs.take j), a) := by
  subst hend
  simpa using putBytes_stopped x bs 0 j s hj (by simpa using hbefore) (by simpa using ha)

theorem putBytes_silentAt (x : Sink) {bs : List Byte} {s : State} {j : Nat}
    (ha : s.sinkAnswer = .silentAt j) (hj : j < bs.length) :
    putBytes x 0 bs s = (s.appendAll x (bs.take j), .silent) :=
  putBytes_endsAt x hj (fun k hk => by simp [ha, SinkAnswer.toByte, hk.ne])
    (by simp [ha, SinkAnswer.toByte]) (by decide)

/-- A reset before byte `j`, or after the last byte and before the response (R240, U16). -/
theorem putBytes_resetAt (x : Sink) {bs : List Byte} {s : State} {j : Nat}
    (ha : s.sinkAnswer = .resetAt j) (hj : j ≤ bs.length) :
    putBytes x 0 bs s = (s.appendAll x (bs.take j), .reset) := by
  rcases hj.lt_or_eq with hj | rfl
  · exact putBytes_endsAt x hj (fun k hk => by simp [ha, SinkAnswer.toByte, hk.ne])
      (by simp [ha, SinkAnswer.toByte]) (by decide)
  · rw [putBytes_resetAtEnd x bs 0 s (by rw [ha, Nat.zero_add]), List.take_length]

/-- Settles O33: the palette stream is offered up to byte `j`, whose answer ends the command. -/
theorem wrpalStuckOrAbandoned : Obligations.WrpalStuckOrAbandoned := by
  intro s p j herr hplen hwptr hpal
  have hrun := exec_wrpal_eq_finishPut herr hplen hwptr hpal
  refine ⟨fun hanswer hj => ?_, fun hanswer hj => ?_⟩
  · rw [hrun, putBytes_silentAt .P hanswer (by rwa [length_paletteBytes])]
    rfl
  · rw [hrun, putBytes_resetAt .P hanswer (by rwa [length_paletteBytes])]
    rfl

/-- Settles O36: the closed form is offered up to byte `j`, whose answer ends the command; a reset
discards the scratch memory. -/
theorem encodeStuckOrAbandoned : Obligations.EncodeStuckOrAbandoned := by
  intro s f j herr hplen hwptr hidx
  obtain ⟨m, hrun⟩ := exec_encode_eq_finishPut herr hplen hwptr hidx
  refine ⟨fun hanswer hj => ?_, fun hanswer hj => ?_⟩
  · rw [hrun, putBytes_silentAt .S hanswer (by rwa [length_spriteBytes])]
    rfl
  · rw [hrun, putBytes_resetAt .S hanswer (by rwa [length_spriteBytes])]
    rfl

/-! ### Steps without a command, reset, `CLR` -/

/-- Settles O8: the fetch finds nothing to do, or a word to refuse. -/
theorem stepWithoutCommand : Obligations.StepWithoutCommand := by
  refine ⟨fun s hs => ?_, fun s w rest hs => ?_⟩
  · have hfetch : fetch s = .idle := by simp [fetch, hs]
    simp [step, hfetch]
  · have hfetch : fetch s = .tooEarly := by simp [fetch, hs]
    simp [step, hfetch]

theorem step_of_reset {s : State} {rest : List HostEvent} (hs : s.inbox = .reset :: rest) :
    step s = .next ({ s with inbox := rest } : State).coreReset := by
  have hfetch : fetch s = .reset := by simp [fetch, hs]
  simp [step, hfetch, resetEvent, State.consume, hs]

/-- Settles O9: both are the core's reset, and only `CLR` answers. -/
theorem resetAndClrAreEquivalent : Obligations.ResetAndClrAreEquivalent :=
  fun _ _ hs => ⟨_, _, step_of_reset hs, rfl, rfl, rfl⟩

theorem State.status_coreReset (s : State) : s.coreReset.status = 0#16 := by
  simp [State.status, State.errf, State.full]

/-- Settles O42: `CLR` is the core's reset and the response 0, and the reset state holds no entry and
no flag. -/
theorem clrRestoresTheResetState : Obligations.ClrRestoresTheResetState :=
  ⟨decodeUndoesEncode .clr, fun s => ⟨rfl, fun _ => ⟨rfl, rfl⟩, s.status_coreReset⟩⟩

end Sys2Proof.Machine
